-- ==== Sys2Proof/Word.lean ====
section
/-! DEFINITION. The plain types of the block: bytes, 16-bit and 32-bit words, byte lists (spec/00_scope.md R5, R6), and the
numbers by which the model tells hosts and host variables apart. -/

namespace Sys2Proof

/-- `u8` (R5). -/
abbrev Byte := BitVec 8

/-- `u16` (R5): every CRC quantity. -/
abbrev Word16 := BitVec 16

/-- `u32` (R5): a raw angle or an origin, in centidegrees. -/
abbrev Word32 := BitVec 32

/-- `bytes` (R6): a finite, possibly empty list of `u8`. -/
abbrev Bytes := List Byte

/-- A host, by number (R13, R79). -/
abbrev HostId := Nat

/-- A host variable, by number (R43 writes it by its name; only equality of names matters). -/
abbrev VarName := Nat

end Sys2Proof
end

