-- ==== Sys2Proof/Machine/Value.lean ====
section
/-! DEFINITION. What passes between host and block: telemetry records, the Ok/Err results of the codec, the result of an
operation, host values, and the request (selector and operand values) by which a host issues an operation
(spec/00_scope.md R7, spec/30_encoding.md R39 to R42). -/

namespace Sys2Proof.Machine

/-- `TelemetryFields` (R40): the payload, the two raw angles, the two rotations in centidegrees. The rotations are exact
integers (R9, R65). -/
structure TelemetryFields where
  payload : Bytes
  rawT : Word32
  rawR : Word32
  rotT : Int
  rotR : Int
deriving DecidableEq, Repr

/-- The three errors of the decode path (R71). They are results, not traps (R72). -/
inductive CodecError where
  /-- "received buffer shorter than the minimum valid frame" (R58). -/
  | frameTooShort
  /-- "first byte is not 0x55" (R59). -/
  | badStartByte
  /-- "recomputed CRC16 disagrees with the received CRC" (R60). -/
  | checksumMismatch
deriving DecidableEq, Repr

/-- `Ok(v)` or `Err(code)` (R7). An error carries its code alone (R66, R71). -/
inductive CodecResult (α : Type) where
  | ok (v : α)
  | err (e : CodecError)
deriving DecidableEq, Repr

/-- The result of one operation, as R40's table gives its form. -/
inductive Result where
  /-- CRC.INIT and CRC.UPDATE return nothing. -/
  | nothing
  /-- CRC16 and CRC.READ. -/
  | u16 (v : Word16)
  /-- ENCODE. -/
  | frame (f : Bytes)
  /-- UNFRAME. -/
  | unframed (r : CodecResult Bytes)
  /-- PROJECT. -/
  | fields (t : TelemetryFields)
  /-- DECODE. -/
  | decoded (r : CodecResult TelemetryFields)
deriving DecidableEq, Repr

/-- A value a host holds in a variable or gives as an operand. Numbers are integers of any size: that an operand is a
`u8` or a `u32`, and a list element a `u8`, is checked when the operation is decoded (R28, R75). -/
inductive Value where
  | int (n : Int)
  | bytes (l : List Int)
  | fields (t : TelemetryFields)
  /-- UNFRAME's whole result, as `-> v` binds it (R40, R43). -/
  | unframed (r : CodecResult Bytes)
  /-- DECODE's whole result, as `-> v` binds it (R40, R43). -/
  | decoded (r : CodecResult TelemetryFields)
deriving DecidableEq, Repr

/-- One issued operation: its 8-bit selector and its operand values (R39, R40). "the encoding is the selector followed by
the operand values, not a byte stream" (spec/95_test_vectors.md section 3). -/
structure Request where
  selector : BitVec 8
  operands : List Value
deriving DecidableEq, Repr

/-- A `u8` as a host value. -/
def byteValue (b : Byte) : Value := .int b.toNat

/-- A byte list as a host value. -/
def bytesValue (l : Bytes) : Value := .bytes (l.map fun b => (b.toNat : Int))

/-- A `u32` as a host value. -/
def originValue (o : Word32) : Value := .int o.toNat

end Sys2Proof.Machine
end

