-- ==== Sys2Proof/Machine/Flags.lean ====
section
/-! DEFINITION. Outcome codes. The block has no status flags and no condition codes (spec/10_state.md R17): what an operation
reports is the status of its result (spec/30_encoding.md R42), which is not state. -/

namespace Sys2Proof.Machine

/-- The 8-bit status of an error (R42, R71). -/
def CodecError.status : CodecError → BitVec 8
  | .frameTooShort => 0x01
  | .badStartByte => 0x02
  | .checksumMismatch => 0x03

/-- The 8-bit status of a codec result: `0x00` is `Ok` (R42). -/
def CodecResult.status {α : Type} : CodecResult α → BitVec 8
  | .ok _ => 0x00
  | .err e => e.status

end Sys2Proof.Machine
end

