-- ==== Sys2Proof/Machine/HostLine.lean ====
section
/-! DEFINITION. What the hosts do: the abstract syntax of host programs (spec/30_encoding.md R43, in the notation of
spec/00_scope.md R5 and R6), and the two events that reach the block from outside, reset and the passing of ACC's
ownership (spec/70_reset_and_hazards.md R82, spec/60_exceptions.md R79). -/

namespace Sys2Proof.Machine

/-- A field of a telemetry record, as a HOST step names it (`t1.rawT`). -/
inductive FieldName where
  | payload | rawT | rawR | rotT | rotR
deriving DecidableEq, Repr

/-- The bit operators of R5. -/
inductive BitOp where
  | xor | or | and | shl | shr
deriving DecidableEq, Repr

/-- An expression over host variables, in the notation of R5 and R6. -/
inductive Expr where
  /-- A literal value. -/
  | lit (v : Value)
  /-- A host variable. -/
  | var (x : VarName)
  /-- `len(s)`. -/
  | len (s : Expr)
  /-- `[x]`, the list of one element. -/
  | single (x : Expr)
  /-- `s[i]`. -/
  | index (s i : Expr)
  /-- `s[a:b]`. -/
  | slice (s a b : Expr)
  /-- `s ++ t`. -/
  | append (s t : Expr)
  /-- `s with s[i] = v`. -/
  | setAt (s i v : Expr)
  /-- A bit operator at a width (R5: "all at the width of the left operand"). -/
  | bits (op : BitOp) (width : Nat) (a b : Expr)
  /-- A field of a telemetry record. -/
  | field (f : FieldName) (t : Expr)
deriving DecidableEq, Repr

/-- What a line binds (R43): nothing, `-> v`, or `-> (st, v)`. -/
inductive Bind where
  | nothing
  | value (v : VarName)
  | status (st v : VarName)
deriving DecidableEq, Repr

/-- One entry of the agenda: a line of some host's program, or an event from outside the block. -/
inductive Act where
  /-- `MNEMONIC operands -> results`, issued by `host` with the selector of the mnemonic (R43). -/
  | issue (host : HostId) (selector : BitVec 8) (operands : List Expr) (bind : Bind)
  /-- `HOST x <- e`: a step of the host, not of the block (R43). -/
  | hostStep (host : HostId) (x : VarName) (e : Expr)
  /-- Ownership of ACC passes to a host: "outside the block" (R79; log entry 4). -/
  | passAcc (newOwner : HostId)
  /-- Reset reaches the block (R82). -/
  | reset
deriving DecidableEq, Repr

/-- A host variable: each host has its own (R43; log entry 6). -/
abbrev VarKey := HostId × VarName

/-- The host variables that are bound, each once. -/
abbrev Vars := List (VarKey × Value)

end Sys2Proof.Machine
end

