-- ==== Sys2Proof/Config.lean ====
section
/-! DEFINITION. The configuration: the three parameters fixed when the block is instantiated (spec/00_scope.md R4,
spec/10_state.md R16). The block's constants, which a test could show wrong, stand in Machine/Parameters.lean. -/

namespace Sys2Proof

/-- FRAME_MIN_LEN, TLM_MIN_LEN and MAX_FRAME_LEN (R4, R16). The last two are OPEN in the spec and have no default: the
model holds the configuration in State, so that a statement about every state is about every value of them. -/
structure Config where
  /-- FRAME_MIN_LEN: the minimum frame length of UNFRAME; the spec's default is 4 (R4, R83). -/
  frameMinLen : Nat := 4
  /-- TLM_MIN_LEN: the minimum frame length of DECODE, 18 or 19 (R4). -/
  tlmMinLen : Nat
  /-- MAX_FRAME_LEN: the longest frame operand the block accepts (R4). -/
  maxFrameLen : Nat
deriving DecidableEq, Repr

/-- The configuration `State.reset` is shown with: FRAME_MIN_LEN at the spec's default (R83).
DESIGN CHOICE (log entry 2), unsafe: TLM_MIN_LEN = 19 and MAX_FRAME_LEN = 256, for which the spec gives no default. -/
def Config.shown : Config := { tlmMinLen := 19, maxFrameLen := 256 }

end Sys2Proof
end

