-- ==== Sys2Proof/Machine/Parameters.lean ====
section
/-! DEFINITION. The block's constants (spec/00_scope.md R4) and the admitted configurations (spec/10_state.md R16). Every
numeric literal is the document's, which the spec calls unaudited (D26; log entry 3), so each stands here once. -/

namespace Sys2Proof.Machine

/-- `START`, the start marker. -/
def START : Byte := 0x55

/-- `END`, the end marker (the word END is kept apart from Lean's own `end`). -/
def END_MARK : Byte := 0xAA

/-- `POLY`, the reflected polynomial. -/
def POLY : Word16 := 0xA001

/-- `INIT`, the initial checksum, and ACC's reset value (R22). -/
def INIT : Word16 := 0xFFFF

/-- `XOROUT`, the final XOR: none. -/
def XOROUT : Word16 := 0x0000

/-- `WIDTH` of the CRC, in bits. -/
abbrev WIDTH : Nat := 16

/-- `OVERHEAD`: a frame is this many bytes longer than its payload. -/
abbrev OVERHEAD : Nat := 4

/-- `T_OFF`, the payload offset of the T-axis angle. -/
abbrev T_OFF : Nat := 6

/-- `R_OFF`, the payload offset of the R-axis angle. -/
abbrev R_OFF : Nat := 10

/-- The shortest payload that holds both angles: 14 bytes (R37, R63). -/
abbrev TLM_PAYLOAD_MIN : Nat := 14

/-- `ANGLE_SCALE`, raw units per degree. -/
abbrev ANGLE_SCALE : Nat := 100

/-- The smallest FRAME_MIN_LEN that R16 admits. -/
abbrev FRAME_MIN_FLOOR : Nat := 4

/-- R16: `FRAME_MIN_LEN >= 4`, `TLM_MIN_LEN` in {18, 19}, `MAX_FRAME_LEN >= TLM_MIN_LEN`. -/
def admittedConfig (c : Config) : Bool :=
  decide (FRAME_MIN_FLOOR ≤ c.frameMinLen) &&
    (c.tlmMinLen == 18 || c.tlmMinLen == 19) && decide (c.tlmMinLen ≤ c.maxFrameLen)

/-- The longest payload operand: `MAX_FRAME_LEN - 4` (R40). -/
def maxPayloadLen (c : Config) : Nat := c.maxFrameLen - OVERHEAD

end Sys2Proof.Machine
end

