-- ==== Sys2Proof/Machine/State.lean ====
section
/-! DEFINITION. The machine's state, the reasons a step can stop, and reset. The block's own state is ACC alone
(spec/10_state.md R14, R19); the other fields are the configuration (R16), who owns ACC and who issues (spec/60_exceptions.md
R79), and the host's side of the interface (R13, R21, R90). -/

namespace Sys2Proof.Machine

/-- The machine. Plain data throughout. -/
structure State where
  /-- `ACC`, the CRC accumulator: the block's only register (R14). -/
  acc : Word16
  /-- FRAME_MIN_LEN, TLM_MIN_LEN, MAX_FRAME_LEN: fixed, written by no operation (R16). -/
  cfg : Config
  /-- The one host that owns ACC (R79). -/
  owner : HostId
  /-- The host whose operation is being carried out (R79). -/
  issuer : HostId
  /-- The result the operation just carried out hands to its host (R7, R40). No operation reads it (R19). -/
  result : Result
  /-- The host variables (R21, R43, R90). No operation reads or writes them. -/
  vars : Vars
  /-- What the hosts do next, the next act first (R15, R31). -/
  agenda : List Act
deriving DecidableEq, Repr

/-- The block has no trap and no fault: an error is a result (R72), and "The block has no trap entry" (R74). So no
constructor: no step ends in a fault. -/
inductive Fault where
deriving DecidableEq, Repr

/-- Why an operation, or a line of a host program, has no step: the reasons of R75, and two of the model's own (log entries
6 and 7) beside notModelled.
All are safe: the model stops, "no state is changed and no result is returned" (R75). -/
inductive Refusal where
  /-- An instruction that has no meaning in the model yet, raised by exec's arm: none is left. Safe. -/
  | notModelled (mnemonic : String)
  /-- R75, R41: raised when an operation with a reserved selector is issued. Safe. -/
  | reservedSelector
  /-- R75: raised by CRC16, ENCODE, UNFRAME, PROJECT and DECODE on a byte list longer than its bound. Safe. -/
  | operandTooLong
  /-- R75: raised when an operation is issued with a byte or a list element outside 0..255. Safe. -/
  | byteOutOfRange
  /-- R75: raised when PROJECT or DECODE is issued with an origin outside 0..2^32-1. Safe. -/
  | originOutOfRange
  /-- R75, R63: raised by PROJECT on a payload of less than 14 bytes. Safe. -/
  | payloadTooShortForTelemetry
  /-- R75, R25, R26: raised by a field read past the end of its list; no operation reaches it. Safe. -/
  | fieldOutOfBounds
  /-- R75, R16: raised by every operation under a configuration that is not admitted. Safe. -/
  | badConfiguration
  /-- R75, R79: raised by CRC.INIT, CRC.UPDATE and CRC.READ issued by a host that does not own ACC. Safe. -/
  | concurrentAccUse
  /-- R28, R40: raised when an operation is issued with operands of another number or kind (log entry 7). Safe. -/
  | malformedOperand
  /-- Raised by a host line whose expression has no value: an unbound variable, an index past the end, a field of what is
  no record (log entry 6). Safe. -/
  | undefinedHostExpression
deriving DecidableEq, Repr

/-- The outcome of carrying something out, before it is turned into a step's outcome. -/
abbrev Checked (α : Type) := Except Refusal α

/-- The machine right after reset under a configuration: ACC at 0xFFFF (R22, R82), the configuration as it is (R83), no
result yet, and a host side on which nothing has happened.
DESIGN CHOICE (log entry 4), unsafe: ACC's owner and the issuing host are host 0, where the spec names none. -/
def State.resetWith (c : Config) : State :=
  { acc := INIT, cfg := c, owner := 0, issuer := 0, result := .nothing, vars := [], agenda := [] }

/-- The machine right after reset. Its configuration is `Config.shown` (log entry 2). -/
def State.reset : State := State.resetWith Config.shown

end Sys2Proof.Machine
end

