-- ==== Sys2Proof/Machine/Operands.lean ====
section
/-! DEFINITION. Operand forms: the checks on an operation's operands and configuration (spec/60_exceptions.md R75), and the
reading and writing of little-endian fields in byte lists (spec/20_memory.md R23 to R26). -/

namespace Sys2Proof.Machine

/-- `refuse(reason)` unless the condition holds (R8, R75). -/
def require (p : Bool) (reason : Refusal) : Checked Unit :=
  if p then .ok () else .error reason

/-- R16: no operation has a meaning under a configuration outside the admitted range. -/
def checkConfig (s : State) : Checked Unit := require (admittedConfig s.cfg) .badConfiguration

/-- R79: an ACC operation is its owner's alone. -/
def checkOwner (s : State) : Checked Unit := require (s.issuer == s.owner) .concurrentAccUse

/-- R40: a byte-list operand is no longer than its bound. -/
def checkLength (l : Bytes) (bound : Nat) : Checked Unit := require (decide (l.length ≤ bound)) .operandTooLong

/-- `s[a:b]` (R6). -/
def slice (l : Bytes) (a b : Nat) : Bytes := (l.take b).drop a

/-- `u16le(v)`: low byte first (R26). -/
def u16le (v : Word16) : Bytes := [v.extractLsb' 0 8, v.extractLsb' 8 8]

/-- `rdU16LE(s, off)` (R26), refused past the end of the list. -/
def rdU16LE (l : Bytes) (off : Nat) : Checked Word16 :=
  match l.drop off with
  | b0 :: b1 :: _ => .ok (b0.setWidth 16 ||| (b1.setWidth 16 <<< 8))
  | _ => .error .fieldOutOfBounds

/-- `readU32LE(buf, off)` (R25), refused past the end of the list. -/
def readU32LE (l : Bytes) (off : Nat) : Checked Word32 :=
  match l.drop off with
  | b0 :: b1 :: b2 :: b3 :: _ =>
    .ok (b0.setWidth 32 ||| (b1.setWidth 32 <<< 8) ||| (b2.setWidth 32 <<< 16) ||| (b3.setWidth 32 <<< 24))
  | _ => .error .fieldOutOfBounds

end Sys2Proof.Machine
end

