-- ==== Sys2Proof/Machine/Ops.lean ====
section
/-! DEFINITION. The named operations the meanings share: the CRC functions (spec/40_crc16_engine.md R46 to R48), framing and
the unframe checks (spec/41_packet_codec.md R56 to R61), the projection of a telemetry payload (R63, R65), access to ACC
(spec/10_state.md R14), and the ending of an operation. The block takes no exception and returns from none (R72, R74): an
error ends an operation as a result does. -/

namespace Sys2Proof.Machine

/-- `crc_bitstep` (R46). -/
def crcBitstep (c : Word16) : Word16 :=
  if c.getLsbD 0 then (c >>> 1) ^^^ POLY else c >>> 1

/-- `n` bit steps (R47 "repeat 8 times"). -/
def crcBitsteps : Nat → Word16 → Word16
  | 0, c => c
  | n + 1, c => crcBitsteps n (crcBitstep c)

/-- `crc_byte` (R47): merge the byte into the low 8 bits, then eight bit steps. -/
def crcByte (c : Word16) (b : Byte) : Word16 := crcBitsteps 8 (c ^^^ b.setWidth 16)

/-- `crc16_from` (R55): the fold of `crc_byte` over the bytes in list order, from a start value. -/
def crc16From (c : Word16) (data : Bytes) : Word16 := data.foldl crcByte c

/-- `crc16` (R48): from INIT, and no final XOR (`XOROUT` is zero). -/
def crc16 (data : Bytes) : Word16 := crc16From INIT data ^^^ XOROUT

/-- The frame of a payload (R34, R56). -/
def frameOf (payload : Bytes) : Bytes := [START] ++ payload ++ u16le (crc16 payload) ++ [END_MARK]

/-- `unframe(raw, minlen)` (R57): length, start byte, CRC, in that order, stopping at the first failure. The end byte is
not looked at (R61). -/
def unframeChecks (raw : Bytes) (minlen : Nat) : Checked (CodecResult Bytes) :=
  if raw.length < minlen then .ok (.err .frameTooShort)
  else
    match raw with
    | [] => .error .fieldOutOfBounds
    | start :: _ =>
      if start ≠ START then .ok (.err .badStartByte)
      else do
        let payload := slice raw 1 (raw.length - 3)
        let rx ← rdU16LE raw (raw.length - 3)
        if crc16 payload ≠ rx then pure (.err .checksumMismatch) else pure (.ok payload)

/-- The rotation `raw - origin`, an exact integer number of centidegrees (R65). -/
def angleRotation (raw origin : Word32) : Int := (raw.toNat : Int) - (origin.toNat : Int)

/-- A rotation as a hardware output holds it: 33-bit two's complement (R65). -/
def rotationBits (rot : Int) : BitVec 33 := BitVec.ofInt 33 rot

/-- Degrees: the exact rational `rot / 100`, for display (R9, R65). -/
def degrees (rot : Int) : Rat := (rot : Rat) / (ANGLE_SCALE : Rat)

/-- PROJECT as a function (R63): the two angles at payload offsets 6 and 10, the rotations against the origins, and the
payload unchanged. -/
def projectFields (payload : Bytes) (originT originR : Word32) : Checked TelemetryFields := do
  require (decide (TLM_PAYLOAD_MIN ≤ payload.length)) .payloadTooShortForTelemetry
  let rawT ← readU32LE payload T_OFF
  let rawR ← readU32LE payload R_OFF
  pure { payload, rawT, rawR, rotT := angleRotation rawT originT, rotR := angleRotation rawR originR }

/-- DECODE as a function (R64): the checks with TLM_MIN_LEN, then the projection; nothing of a frame that fails a check is
interpreted (R66). -/
def decodeTelemetry (raw : Bytes) (minlen : Nat) (originT originR : Word32) : Checked (CodecResult TelemetryFields) := do
  let checked ← unframeChecks raw minlen
  match checked with
  | .err e => pure (.err e)
  | .ok payload => do
    let t ← projectFields payload originT originR
    pure (.ok t)

/-- Reading ACC has no side effect (R14, R52). -/
def State.readAcc (s : State) : Word16 := s.acc

/-- `ACC <- v` (R8). -/
def State.writeAcc (s : State) (v : Word16) : State := { s with acc := v }

/-- The operation hands its result to the host that issued it (R7, R40). -/
def State.handResult (s : State) (r : Result) : State := { s with result := r }

/-- An operation ends: it has produced its whole result, or it is refused and nothing has happened (R29, R75). -/
def finish : Checked State → Host.Outcome State Fault Refusal
  | .ok t => .next t
  | .error r => .refused r

end Sys2Proof.Machine
end

