-- ==== Sys2Proof/Machine/CrcEngine.lean ====
section
/-! DEFINITION. The meanings of the CRC engine's operations (spec/40_crc16_engine.md R49 to R52). -/

namespace Sys2Proof.Machine

/-- CRC16 (R49). ACC is neither read nor written. -/
def execCrc16 (data : Bytes) (s : State) : Host.Outcome State Fault Refusal :=
  finish do
    checkConfig s
    checkLength data s.cfg.maxFrameLen
    pure (s.handResult (.u16 (crc16 data)))

/-- CRC.INIT (R50): `ACC <- 0xFFFF`. -/
def execCrcInit (s : State) : Host.Outcome State Fault Refusal :=
  finish do
    checkConfig s
    checkOwner s
    pure ((s.writeAcc INIT).handResult .nothing)

/-- CRC.UPDATE (R51): `ACC <- crc_byte(ACC, b)`, whatever ACC holds. -/
def execCrcUpdate (b : Byte) (s : State) : Host.Outcome State Fault Refusal :=
  finish do
    checkConfig s
    checkOwner s
    pure ((s.writeAcc (crcByte s.readAcc b)).handResult .nothing)

/-- CRC.READ (R52): return ACC. -/
def execCrcRead (s : State) : Host.Outcome State Fault Refusal :=
  finish do
    checkConfig s
    checkOwner s
    pure (s.handResult (.u16 s.readAcc))

end Sys2Proof.Machine
end

