-- ==== Sys2Proof/Machine/PacketCodec.lean ====
section
/-! DEFINITION. The meanings of the packet codec's operations (spec/41_packet_codec.md R56, R62 to R64). All are pure: they
neither read nor write ACC. -/

namespace Sys2Proof.Machine

/-- ENCODE (R56). -/
def execEncode (payload : Bytes) (s : State) : Host.Outcome State Fault Refusal :=
  finish do
    checkConfig s
    checkLength payload (maxPayloadLen s.cfg)
    pure (s.handResult (.frame (frameOf payload)))

/-- UNFRAME (R62): the checks with FRAME_MIN_LEN. -/
def execUnframe (raw : Bytes) (s : State) : Host.Outcome State Fault Refusal :=
  finish do
    checkConfig s
    checkLength raw s.cfg.maxFrameLen
    let r ← unframeChecks raw s.cfg.frameMinLen
    pure (s.handResult (.unframed r))

/-- PROJECT (R63). -/
def execProject (payload : Bytes) (originT originR : Word32) (s : State) : Host.Outcome State Fault Refusal :=
  finish do
    checkConfig s
    checkLength payload (maxPayloadLen s.cfg)
    let t ← projectFields payload originT originR
    pure (s.handResult (.fields t))

/-- DECODE (R64): the checks with TLM_MIN_LEN, then PROJECT. -/
def execDecode (raw : Bytes) (originT originR : Word32) (s : State) : Host.Outcome State Fault Refusal :=
  finish do
    checkConfig s
    checkLength raw s.cfg.maxFrameLen
    let r ← decodeTelemetry raw s.cfg.tlmMinLen originT originR
    pure (s.handResult (.decoded r))

end Sys2Proof.Machine
end

