-- ==== Sys2Proof/Syntax.lean ====
section
/-! DEFINITION. The instruction set: one constructor per row of spec/opcode_table.json, with its operands as
spec/30_encoding.md R40 types them. -/

namespace Sys2Proof

/-- The eight operations of the block (R39, R40). -/
inductive Instr where
  /-- CRC16 (R49): the checksum of a whole byte list. -/
  | crc16 (data : Bytes)
  /-- CRC.INIT (R50): start a byte-serial computation. -/
  | crcInit
  /-- CRC.UPDATE (R51): feed one byte. -/
  | crcUpdate (b : Byte)
  /-- CRC.READ (R52): read the running checksum. -/
  | crcRead
  /-- ENCODE (R56): frame a payload. -/
  | encodeFrame (payload : Bytes)
  /-- UNFRAME (R62): check a frame and return its payload. -/
  | unframe (raw : Bytes)
  /-- PROJECT (R63): read the two angles out of a telemetry payload. -/
  | project (payload : Bytes) (originT originR : Word32)
  /-- DECODE (R64): check a telemetry frame and read its angles. -/
  | decodeFrame (raw : Bytes) (originT originR : Word32)
deriving DecidableEq, Repr

end Sys2Proof
end

