-- ==== Sys2Proof/Machine/Dispatch.lean ====
section
/-! DEFINITION. One arm per instruction: which meaning it has. -/

namespace Sys2Proof.Machine

def exec (i : Instr) (s : State) : Host.Outcome State Fault Refusal :=
  match i with
  | .crc16 data => Sys2Proof.Machine.execCrc16 data s
  | .crcInit => Sys2Proof.Machine.execCrcInit s
  | .crcUpdate b => Sys2Proof.Machine.execCrcUpdate b s
  | .crcRead => Sys2Proof.Machine.execCrcRead s
  | .encodeFrame payload => Sys2Proof.Machine.execEncode payload s
  | .unframe raw => Sys2Proof.Machine.execUnframe raw s
  | .project payload originT originR => Sys2Proof.Machine.execProject payload originT originR s
  | .decodeFrame raw originT originR => Sys2Proof.Machine.execDecode raw originT originR s

end Sys2Proof.Machine
end

