-- ==== Sys2Proof/WellFormed.lean ====
section
/-! DEFINITION. Which operands an operation admits (spec/30_encoding.md R40). The element ranges (`u8`, `u32`) are in the
types of Instr; what is left to check are the lengths, which depend on the configuration. -/

namespace Sys2Proof

/-- R40: the length bounds of the operation's byte-list operand. -/
def Instr.wf (c : Config) : Instr → Bool
  | .crc16 data => decide (data.length ≤ c.maxFrameLen)
  | .crcInit => true
  | .crcUpdate _ => true
  | .crcRead => true
  | .encodeFrame payload => decide (payload.length ≤ Machine.maxPayloadLen c)
  | .unframe raw => decide (raw.length ≤ c.maxFrameLen)
  | .project payload _ _ =>
      decide (Machine.TLM_PAYLOAD_MIN ≤ payload.length) && decide (payload.length ≤ Machine.maxPayloadLen c)
  | .decodeFrame raw _ _ => decide (raw.length ≤ c.maxFrameLen)

end Sys2Proof
end

