-- ==== Sys2Proof/Decode.lean ====
section
/-! DEFINITION. Decoding a request (selector and operand values) into an instruction, total and rejecting by name, and the
encoder (spec/30_encoding.md R39 to R41; the operand checks of spec/60_exceptions.md R75 that need no configuration). -/

namespace Sys2Proof

open Machine (Value Request byteValue bytesValue originValue)

/-- Why a request spells no operation. -/
inductive DecodeError where
  /-- R41: the selector is `0x00`, `0x05` to `0x0F`, or `0x14` to `0xFF`. -/
  | reservedSelector
  /-- R75: a byte operand or a list element is outside 0..255. -/
  | byteOutOfRange
  /-- R75: an origin is outside 0..2^32-1. -/
  | originOutOfRange
  /-- R28, R40: the operands have not the number or the kind the selector fixes (log entry 7). -/
  | malformedOperand
deriving DecidableEq, Repr

/-- The operation a selector chooses, before its operands are read. -/
inductive OpName where
  | crc16 | crcInit | crcUpdate | crcRead | encodeFrame | unframe | project | decodeFrame
deriving DecidableEq, Repr

/-- The selector of each operation (R39, opcode_table.json), used by the encoder. -/
def OpName.selector : OpName → BitVec 8
  | .crc16 => 0b00000001
  | .crcInit => 0b00000010
  | .crcUpdate => 0b00000011
  | .crcRead => 0b00000100
  | .encodeFrame => 0b00010000
  | .unframe => 0b00010001
  | .project => 0b00010010
  | .decodeFrame => 0b00010011

/-- R39 read the other way: the operation of a selector, none for a reserved one (R41). -/
def decodeSelector (sel : BitVec 8) : Option OpName :=
  if sel = 0x01 then some .crc16
  else if sel = 0x02 then some .crcInit
  else if sel = 0x03 then some .crcUpdate
  else if sel = 0x04 then some .crcRead
  else if sel = 0x10 then some .encodeFrame
  else if sel = 0x11 then some .unframe
  else if sel = 0x12 then some .project
  else if sel = 0x13 then some .decodeFrame
  else none

/-- An integer as a `u8` (R5), refused outside 0..255. -/
def asByte (n : Int) : Except DecodeError Byte :=
  if 0 ≤ n ∧ n ≤ 255 then .ok (BitVec.ofNat 8 n.toNat) else .error .byteOutOfRange

/-- A list of integers as `bytes` (R6), refused when an element is outside 0..255. -/
def asBytes : List Int → Except DecodeError Bytes
  | [] => .ok []
  | n :: l => do
    let b ← asByte n
    let bs ← asBytes l
    pure (b :: bs)

/-- An integer as a `u32` origin (R40), refused outside 0..2^32-1. -/
def asOrigin (n : Int) : Except DecodeError Word32 :=
  if 0 ≤ n ∧ n ≤ 4294967295 then .ok (BitVec.ofNat 32 n.toNat) else .error .originOutOfRange

/-- The operand forms of R40's table. "No selector has modifiers, and no operand has another form." -/
def decodeOperands (op : OpName) (vs : List Value) : Except DecodeError Instr :=
  match op, vs with
  | .crc16, [.bytes l] => do
    let data ← asBytes l
    pure (.crc16 data)
  | .crcInit, [] => .ok .crcInit
  | .crcUpdate, [.int n] => do
    let b ← asByte n
    pure (.crcUpdate b)
  | .crcRead, [] => .ok .crcRead
  | .encodeFrame, [.bytes l] => do
    let payload ← asBytes l
    pure (.encodeFrame payload)
  | .unframe, [.bytes l] => do
    let raw ← asBytes l
    pure (.unframe raw)
  | .project, [.bytes l, .int nT, .int nR] => do
    let payload ← asBytes l
    let oT ← asOrigin nT
    let oR ← asOrigin nR
    pure (.project payload oT oR)
  | .decodeFrame, [.bytes l, .int nT, .int nR] => do
    let raw ← asBytes l
    let oT ← asOrigin nT
    let oR ← asOrigin nR
    pure (.decodeFrame raw oT oR)
  | _, _ => .error .malformedOperand

/-- R39, R41: the selector first, then the operands it fixes. -/
def decode (r : Request) : Except DecodeError Instr :=
  match decodeSelector r.selector with
  | none => .error .reservedSelector
  | some op => decodeOperands op r.operands

/-- The operation an instruction is. -/
def Instr.opName : Instr → OpName
  | .crc16 _ => .crc16
  | .crcInit => .crcInit
  | .crcUpdate _ => .crcUpdate
  | .crcRead => .crcRead
  | .encodeFrame _ => .encodeFrame
  | .unframe _ => .unframe
  | .project _ _ _ => .project
  | .decodeFrame _ _ _ => .decodeFrame

/-- The operand values of an instruction, in R40's order. -/
def Instr.operandValues : Instr → List Value
  | .crc16 data => [bytesValue data]
  | .crcInit => []
  | .crcUpdate b => [byteValue b]
  | .crcRead => []
  | .encodeFrame payload => [bytesValue payload]
  | .unframe raw => [bytesValue raw]
  | .project payload oT oR => [bytesValue payload, originValue oT, originValue oR]
  | .decodeFrame raw oT oR => [bytesValue raw, originValue oT, originValue oR]

/-- The request that issues an instruction (R39, R40). -/
def encode (i : Instr) : Request := ⟨i.opName.selector, i.operandValues⟩

/-- The operand values that stand for "operand words of zeros": zero for a number and the shortest admitted list of zero
bytes for a list, which for PROJECT has 14 bytes (R40). DESIGN CHOICE (log entry 5). -/
def zeroOperands : OpName → List Value
  | .crc16 => [.bytes []]
  | .crcInit => []
  | .crcUpdate => [.int 0]
  | .crcRead => []
  | .encodeFrame => [.bytes []]
  | .unframe => [.bytes []]
  | .project => [.bytes (List.replicate 14 0), .int 0, .int 0]
  | .decodeFrame => [.bytes [], .int 0, .int 0]

/-- The request of an opcode-table word: its low 8 bits are the selector and it has no other bits, since operands are
passed by value (opcode_table.json). A word with a bit above bit 7 spells no operation; it is given the reserved selector
`0x00` (log entry 5). -/
def tableRequest (nbits w : Nat) : Request :=
  let bits := w % 2 ^ nbits
  let sel : BitVec 8 := if bits < 256 then BitVec.ofNat 8 bits else 0x00
  match decodeSelector sel with
  | none => ⟨sel, []⟩
  | some op => ⟨sel, zeroOperands op⟩

/-- The instruction the decoder reads from an opcode-table word. -/
def decodeTableWord (nbits w : Nat) : Option Instr :=
  match decode (tableRequest nbits w) with
  | .ok i => some i
  | .error _ => none

end Sys2Proof
end

