-- ==== Sys2Proof/Machine/HostSide.lean ====
section
/-! DEFINITION. The host's side of a step: the values of host expressions (spec/00_scope.md R5, R6), the binding of results to
host variables and the pseudo-operation CRC.SEQ (spec/30_encoding.md R43, R44). None of it is state of the block
(spec/10_state.md R21). -/

namespace Sys2Proof.Machine

/-- The value of a host variable, none when it is unbound. -/
def lookupVar (vars : Vars) (k : VarKey) : Option Value :=
  match vars with
  | [] => none
  | (k', v) :: rest => if k' = k then some v else lookupVar rest k

/-- Bind a host variable, in place of what it held. -/
def bindVar (vars : Vars) (k : VarKey) (v : Value) : Vars := (k, v) :: vars.filter (fun p => decide (p.1 ≠ k))

/-- A bit operator of R5 on naturals, "with bits above that width dropped". -/
def BitOp.apply (op : BitOp) (width a b : Nat) : Nat :=
  match op with
  | .xor => (a ^^^ b) % 2 ^ width
  | .or => (a ||| b) % 2 ^ width
  | .and => (a &&& b) % 2 ^ width
  | .shl => a * 2 ^ b % 2 ^ width
  | .shr => a / 2 ^ b % 2 ^ width

/-- A field of a telemetry record as a host value. -/
def FieldName.get (f : FieldName) (t : TelemetryFields) : Value :=
  match f with
  | .payload => bytesValue t.payload
  | .rawT => originValue t.rawT
  | .rawR => originValue t.rawR
  | .rotT => .int t.rotT
  | .rotR => .int t.rotR

/-- `s[i]` (R6): an element that exists. -/
def indexValue : Value → Value → Option Value
  | .bytes l, .int i => if 0 ≤ i then (l[i.toNat]?).map Value.int else none
  | _, _ => none

/-- `s[a:b]` (R6): elements `a` up to `b-1`, all of which exist; empty when `b <= a`. -/
def sliceValue : Value → Value → Value → Option Value
  | .bytes l, .int a, .int b =>
    if b ≤ a then some (.bytes [])
    else if 0 ≤ a ∧ b ≤ l.length then some (.bytes ((l.take b.toNat).drop a.toNat)) else none
  | _, _, _ => none

/-- `s with s[i] = v` (R43): an element that exists is replaced. -/
def setAtValue : Value → Value → Value → Option Value
  | .bytes l, .int i, .int v => if 0 ≤ i ∧ i < l.length then some (.bytes (l.set i.toNat v)) else none
  | _, _, _ => none

/-- A bit operator at the left operand's width (R5); both operands unsigned, the left one within its width. -/
def bitsValue (op : BitOp) (width : Nat) : Value → Value → Option Value
  | .int a, .int b =>
    if 0 ≤ a ∧ a < 2 ^ width ∧ 0 ≤ b then some (.int (op.apply width a.toNat b.toNat)) else none
  | _, _ => none

/-- The value of an expression over a host's variables; none where the notation gives it no value. -/
def evalExpr (vars : Vars) (h : HostId) : Expr → Option Value
  | .lit v => some v
  | .var x => lookupVar vars (h, x)
  | .len e =>
    match evalExpr vars h e with
    | some (.bytes l) => some (.int l.length)
    | _ => none
  | .single e =>
    match evalExpr vars h e with
    | some (.int n) => some (.bytes [n])
    | _ => none
  | .index e i => do indexValue (← evalExpr vars h e) (← evalExpr vars h i)
  | .slice e a b => do sliceValue (← evalExpr vars h e) (← evalExpr vars h a) (← evalExpr vars h b)
  | .append e f =>
    match evalExpr vars h e, evalExpr vars h f with
    | some (.bytes l), some (.bytes m) => some (.bytes (l ++ m))
    | _, _ => none
  | .setAt e i v => do setAtValue (← evalExpr vars h e) (← evalExpr vars h i) (← evalExpr vars h v)
  | .bits op width a b => do bitsValue op width (← evalExpr vars h a) (← evalExpr vars h b)
  | .field f e =>
    match evalExpr vars h e with
    | some (.fields t) => some (f.get t)
    | _ => none

/-- The values of an operation's operands: "The host gives the selector with the operation's operands" by value (R39). -/
def evalOperands (vars : Vars) (h : HostId) : List Expr → Option (List Value)
  | [] => some []
  | e :: es => do
    let v ← evalExpr vars h e
    let vs ← evalOperands vars h es
    pure (v :: vs)

/-- The value `-> v` binds: the result, in R40's form, a codec result whole (R43). None where the operation returns nothing. -/
def Result.boundValue : Result → Option Value
  | .u16 v => some (.int v.toNat)
  | .frame f => some (bytesValue f)
  | .fields t => some (.fields t)
  | .unframed r => some (.unframed r)
  | .decoded r => some (.decoded r)
  | .nothing => none

/-- The status of a codec result, and its `Ok` value when there is one (R42, R43). None for the result of an operation that
has no status. -/
def Result.statusAndValue : Result → Option (BitVec 8 × Option Value)
  | .unframed (.ok p) => some (CodecResult.status (.ok p), some (bytesValue p))
  | .unframed (.err e) => some (e.status, none)
  | .decoded (.ok t) => some (CodecResult.status (.ok t), some (.fields t))
  | .decoded (.err e) => some (e.status, none)
  | .nothing => none
  | .u16 _ => none
  | .frame _ => none
  | .fields _ => none

/-- Bind a host variable to a value that may be missing: a missing one binds nothing. -/
def bindVar? (vars : Vars) (k : VarKey) : Option Value → Vars
  | some v => bindVar vars k v
  | none => vars

/-- Bind a result to host variables. "v, which stays unbound when `st != 0`" (R43): then only `st` is bound.
DESIGN CHOICE (log entry 6), where R43 says nothing: a line that names a variable for what the operation does not return
(`-> v` on CRC.INIT or CRC.UPDATE, `-> (st, v)` on an operation without a status) binds nothing; and `-> (v, v)` binds the status
first, so that the Ok value then takes its place, and on an error `v` holds the status. -/
def bindResult (vars : Vars) (h : HostId) (b : Bind) (r : Result) : Vars :=
  match b with
  | .nothing => vars
  | .value x => bindVar? vars (h, x) r.boundValue
  | .status st x =>
    match r.statusAndValue with
    | none => vars
    | some (c, v) => bindVar? (bindVar vars (h, st) (byteValue c)) (h, x) v

/-- CRC.SEQ (R44): CRC.INIT, then CRC.UPDATE of each byte in list order, then CRC.READ. -/
def crcSeq (data : Bytes) : List Instr := Instr.crcInit :: (data.map Instr.crcUpdate ++ [Instr.crcRead])

/-- A line that issues an instruction with its operands written as literals. -/
def issueLine (h : HostId) (i : Instr) (b : Bind) : Act :=
  .issue h (encode i).selector ((encode i).operands.map Expr.lit) b

/-- The lines `CRC.SEQ data -> x` expands to (R44). -/
def crcSeqLines (h : HostId) (data : Bytes) (x : VarName) : List Act :=
  issueLine h .crcInit .nothing ::
    (data.map (fun b => issueLine h (.crcUpdate b) .nothing) ++ [issueLine h .crcRead (.value x)])

/-- The refusal of a request that spells no operation (R75). -/
def refusalOfDecode : DecodeError → Refusal
  | .reservedSelector => .reservedSelector
  | .byteOutOfRange => .byteOutOfRange
  | .originOutOfRange => .originOutOfRange
  | .malformedOperand => .malformedOperand

end Sys2Proof.Machine
end

