-- ==== Sys2Proof/Machine/Issue.lean ====
section
/-! DEFINITION. What one act of the agenda does: an operation is issued, a host step is taken, ownership of ACC passes, or
reset arrives (spec/10_state.md R13, spec/70_reset_and_hazards.md R82, R90). -/

namespace Sys2Proof.Machine

/-- Reset: `ACC` to `0xFFFF` "and nothing else" (R82). -/
def State.afterReset (s : State) : State := s.writeAcc INIT

/-- A request is carried out for a host: decode it, run the instruction, hand over the result (R31, R39).
DESIGN CHOICE (log entry 8): R75 does not order its reasons. Those that decoding finds (a reserved selector, an operand's number
or kind, a byte or an origin out of range) are named before those that exec finds (the configuration, ACC's owner, a length): a
DECODE of an over-long list with a bad origin is refused as originOutOfRange. -/
def runRequest (h : HostId) (r : Request) (s : State) : Host.Outcome State Fault Refusal :=
  match decode r with
  | .error e => .refused (refusalOfDecode e)
  | .ok i => exec i { s with issuer := h }

/-- The host binds the result of its operation (R43); an operation that was refused has none (R90). -/
def bindOutcome (h : HostId) (b : Bind) : Host.Outcome State Fault Refusal → Host.Outcome State Fault Refusal
  | .next t => .next { t with vars := bindResult t.vars h b t.result }
  | .fault f => .fault f
  | .refused r => .refused r

/-- One act.
DESIGN CHOICE (log entry 8): an operation's operand expressions are evaluated before its selector is looked at, so a line with
a reserved selector and an operand without a value is refused as undefinedHostExpression. -/
def runAct (a : Act) (s : State) : Host.Outcome State Fault Refusal :=
  match a with
  | .issue h sel es b =>
    match evalOperands s.vars h es with
    | none => .refused .undefinedHostExpression
    | some vs => bindOutcome h b (runRequest h ⟨sel, vs⟩ s)
  | .hostStep h x e =>
    match evalExpr s.vars h e with
    | none => .refused .undefinedHostExpression
    | some v => .next { s with vars := bindVar s.vars (h, x) v }
  | .passAcc newOwner => .next { s with owner := newOwner }
  | .reset => .next s.afterReset

/-- The act at the head of the agenda is taken off it and done. With an empty agenda nothing happens: the block "never
starts an operation of its own" (R13; log entry 1). -/
def nextAct (s : State) : Host.Outcome State Fault Refusal :=
  match s.agenda with
  | [] => .next s
  | a :: rest => runAct a { s with agenda := rest }

/-- The line that issues an opcode-table word, for the host that owns ACC (log entry 5). -/
def tableLine (owner : HostId) (nbits w : Nat) : Act :=
  .issue owner (tableRequest nbits w).selector ((tableRequest nbits w).operands.map Expr.lit) .nothing

end Sys2Proof.Machine
end

