-- ==== Sys2Proof/Machine/Step.lean ====
section
/-! DEFINITION. One step: the next act of the agenda (spec/10_state.md R13, R15), and where a next instruction is placed. -/

namespace Sys2Proof.Machine

/-- One step. -/
def step (s : State) : Host.Outcome State Fault Refusal := nextAct s

/-- The block fetches no program (R15): "the next operation is whichever one the host issues next". So the instruction is
placed at the head of the agenda, where the next step takes it (log entry 5). -/
def State.withFetchWord (s : State) (nbits w : Nat) : State :=
  { s with agenda := tableLine s.owner nbits w :: s.agenda }

end Sys2Proof.Machine
end

