-- ==== Sys2Proof/Safety.lean ====
section
/-! DEFINITION. The terms the statements use: which instructions use ACC, when an instruction is admitted, sequences of
instructions, ranges of results, and the invariant of a step. -/

namespace Sys2Proof

/-- The three operations that read or write ACC (R14). The other five are the pure operations (R31). -/
def Instr.usesAcc : Instr → Bool
  | .crc16 _ => false
  | .crcInit => true
  | .crcUpdate _ => true
  | .crcRead => true
  | .encodeFrame _ => false
  | .unframe _ => false
  | .project _ _ _ => false
  | .decodeFrame _ _ _ => false

/-- The byte a CRC.UPDATE feeds. -/
def Instr.fedByte : Instr → Option Byte
  | .crc16 _ => none
  | .crcInit => none
  | .crcUpdate b => some b
  | .crcRead => none
  | .encodeFrame _ => none
  | .unframe _ => none
  | .project _ _ _ => none
  | .decodeFrame _ _ _ => none

namespace Machine

/-- An operation the block gives a meaning: an admitted configuration (R16), operands in range (R40), and for an ACC
operation the owning host (R79). -/
def Admitted (i : Instr) (s : State) : Prop :=
  admittedConfig s.cfg = true ∧ i.wf s.cfg = true ∧ (i.usesAcc = true → s.issuer = s.owner)

/-- A step is safe when it is not refused. -/
def SafeStep (s : State) : Prop := ∃ t, step s = .next t

/-- Operations one after another, stopping at the first that is refused (R31, R90). -/
def execAll : List Instr → State → Host.Outcome State Fault Refusal
  | [], s => .next s
  | i :: rest, s =>
    match exec i s with
    | .next t => execAll rest t
    | .fault f => .fault f
    | .refused r => .refused r

/-- A number of steps, stopping at the first that is refused: how a host program runs (R90). -/
def runSteps : Nat → State → Host.Outcome State Fault Refusal
  | 0, s => .next s
  | k + 1, s =>
    match step s with
    | .next t => runSteps k t
    | .fault f => .fault f
    | .refused r => .refused r

/-- R40, R65: both rotations fit a 33-bit two's-complement field, and the payload holds both angles and fits a frame. -/
def TelemetryFields.inRange (c : Config) (t : TelemetryFields) : Prop :=
  TLM_PAYLOAD_MIN ≤ t.payload.length ∧ t.payload.length ≤ maxPayloadLen c ∧
    -(2 ^ 32 - 1) ≤ t.rotT ∧ t.rotT ≤ 2 ^ 32 - 1 ∧ -(2 ^ 32 - 1) ≤ t.rotR ∧ t.rotR ≤ 2 ^ 32 - 1

/-- The results the block can hand over under a configuration (R28, R40). -/
def Result.inRange (c : Config) : Result → Prop
  | .nothing => True
  | .u16 _ => True
  | .frame f => OVERHEAD ≤ f.length ∧ f.length ≤ c.maxFrameLen
  | .unframed (.ok p) => p.length ≤ maxPayloadLen c
  | .unframed (.err _) => True
  | .fields t => t.inRange c
  | .decoded (.ok t) => t.inRange c
  | .decoded (.err _) => True

/-- What every step keeps: the configuration is admitted (R16), the result handed over is in range (R40), and each host
variable is bound once. -/
def Inv (s : State) : Prop :=
  admittedConfig s.cfg = true ∧ s.result.inRange s.cfg ∧ (s.vars.map Prod.fst).Nodup

end Machine

end Sys2Proof
end

