-- ==== Sys2Proof/Certificates/Slice0/Obligations.lean ====
section
/-! DEFINITION. The statements for the provers. Each docstring names the rule or the section of spec/ it formalises. -/

open Sys2Proof Sys2Proof.Machine

/-! ### CRC functions -/

/-- R46: one bit step. -/
def Obligations.CrcBitstepShiftsThenXorsPoly : Prop :=
  ∀ c : Word16,
    (c.getLsbD 0 = true → crcBitstep c = (c >>> 1) ^^^ 0xA001#16) ∧
    (c.getLsbD 0 = false → crcBitstep c = c >>> 1)

/-- R47: merge into the low 8 bits, then eight bit steps; bits 15 to 8 are unchanged by the merge. -/
def Obligations.CrcByteMergesThenTakesEightSteps : Prop :=
  ∀ (c : Word16) (b : Byte),
    crcByte c b =
      crcBitstep (crcBitstep (crcBitstep (crcBitstep (crcBitstep (crcBitstep (crcBitstep (crcBitstep
        (c ^^^ b.setWidth 16)))))))) ∧
    ∀ k, 8 ≤ k → (c ^^^ b.setWidth 16).getLsbD k = c.getLsbD k

/-- R48: from 0xFFFF, one `crc_byte` per byte, first byte first, nothing done at the end. -/
def Obligations.Crc16FoldsBytesFromInit : Prop :=
  crc16 [] = 0xFFFF#16 ∧
  (∀ (data : Bytes) (b : Byte), crc16 (data ++ [b]) = crcByte (crc16 data) b) ∧
  (∀ data : Bytes, crc16 data = data.foldl crcByte 0xFFFF#16)

/-- 40_crc16_engine.md section 3 (the laws the spec derives in R54): the shift fills with zero, bit 15 of a step is the old
bit 0, and the XOR toggles bits 13 and 0 beside it. -/
def Obligations.CrcBitstepSixteenBitLaws : Prop :=
  ∀ c : Word16,
    (c >>> 1).toNat ≤ 0x7FFF ∧
    (crcBitstep c).getLsbD 15 = c.getLsbD 0 ∧
    (c.getLsbD 0 = true → ∀ k, k < 15 →
      (crcBitstep c).getLsbD k = ((c >>> 1).getLsbD k ^^ decide (k = 13 ∨ k = 0)))

/-- 40_crc16_engine.md section 3 (derived in R53): a computation may be split at any byte boundary. -/
def Obligations.Crc16SplitsAtAnyByteBoundary : Prop :=
  ∀ a b : Bytes, crc16 (a ++ b) = crc16From (crc16 a) b

/-- 40_crc16_engine.md section 3 (derived in R55): the checksum is affine over bytewise XOR, so whether a change is detected
does not depend on the data. -/
def Obligations.Crc16IsAffineOverXor : Prop :=
  ∀ a e : Bytes, a.length = e.length →
    crc16 (List.zipWith (fun x y => x ^^^ y) a e) = crc16 a ^^^ crc16From 0 e ∧
    (crc16 (List.zipWith (fun x y => x ^^^ y) a e) ≠ crc16 a ↔ crc16From 0 e ≠ 0)

/-- 40_crc16_engine.md section 3 (derived in R55): a change of exactly one byte, at any place of a list of any length, always
changes the checksum. -/
def Obligations.SingleByteChangeAlwaysChangesCrc : Prop :=
  ∀ (m n : Nat) (b : Byte), b ≠ 0 →
    crc16From 0 (List.replicate m 0 ++ b :: List.replicate n 0) ≠ 0

/-! ### Byte order and field access -/

/-- R24: the CRC field of a frame, low byte first. -/
def Obligations.FrameCrcFieldIsLowByteFirst : Prop :=
  ∀ p : Bytes,
    (frameOf p)[p.length + 1]? = some ((crc16 p).extractLsb' 0 8) ∧
    (frameOf p)[p.length + 2]? = some ((crc16 p).extractLsb' 8 8)

/-- R26: `u16le` and `rdU16LE`, the bound of the read, that the one undoes the other, and that ENCODE and the unframe checks
use them. -/
def Obligations.U16FieldsAreLittleEndian : Prop :=
  (∀ v : Word16, u16le v = [v.extractLsb' 0 8, v.extractLsb' 8 8]) ∧
  (∀ (l : Bytes) (off : Nat) (lo hi : Byte), l[off]? = some lo → l[off + 1]? = some hi →
    rdU16LE l off = .ok (lo.setWidth 16 ||| (hi.setWidth 16 <<< 8))) ∧
  (∀ (l : Bytes) (off : Nat), l.length < off + 2 → rdU16LE l off = .error .fieldOutOfBounds) ∧
  (∀ (v : Word16) (pre post : Bytes), rdU16LE (pre ++ u16le v ++ post) pre.length = .ok v) ∧
  (∀ p : Bytes, frameOf p = [0x55#8] ++ p ++ u16le (crc16 p) ++ [0xAA#8]) ∧
  (∀ (raw : Bytes) (minlen : Nat) (rx : Word16), 4 ≤ minlen → minlen ≤ raw.length → raw.head? = some 0x55#8 →
    rdU16LE raw (raw.length - 3) = .ok rx →
    (unframeChecks raw minlen = .ok (.err .checksumMismatch) ↔ crc16 ((raw.drop 1).take (raw.length - 4)) ≠ rx))

/-- R25: `readU32LE` reads four bytes at any offset, and is refused past the end of its list. -/
def Obligations.ReadU32LEIsBytewiseAndBounded : Prop :=
  (∀ (l : Bytes) (off : Nat) (b0 b1 b2 b3 : Byte),
    l[off]? = some b0 → l[off + 1]? = some b1 → l[off + 2]? = some b2 → l[off + 3]? = some b3 →
    ∃ v, readU32LE l off = .ok v ∧ v.toNat = b0.toNat + 2 ^ 8 * b1.toNat + 2 ^ 16 * b2.toNat + 2 ^ 24 * b3.toNat) ∧
  (∀ (l : Bytes) (off : Nat), l.length < off + 4 → readU32LE l off = .error .fieldOutOfBounds)

/-- R34: the layout of a frame. -/
def Obligations.FrameLayout : Prop :=
  ∀ p : Bytes,
    (frameOf p).length = p.length + 4 ∧
    (frameOf p)[0]? = some 0x55#8 ∧
    (∀ k, k < p.length → (frameOf p)[1 + k]? = p[k]?) ∧
    (frameOf p)[1 + p.length]? = some ((crc16 p).extractLsb' 0 8) ∧
    (frameOf p)[2 + p.length]? = some ((crc16 p).extractLsb' 8 8) ∧
    (frameOf p)[3 + p.length]? = some 0xAA#8

/-! ### Encoding of operations -/

/-- R39: the selector table, each selector written out bit by bit, alone and as an opcode-table word. -/
def Obligations.SelectorTableDecodes : Prop :=
  decode ⟨0b00000001, [.bytes [0x31, 0x32]]⟩ = .ok (.crc16 [0x31, 0x32]) ∧
  decode ⟨0b00000010, []⟩ = .ok .crcInit ∧
  decode ⟨0b00000011, [.int 0x31]⟩ = .ok (.crcUpdate 0x31) ∧
  decode ⟨0b00000100, []⟩ = .ok .crcRead ∧
  decode ⟨0b00010000, [.bytes [0x55]]⟩ = .ok (.encodeFrame [0x55]) ∧
  decode ⟨0b00010001, [.bytes [0x55, 0xFF, 0xFF, 0xAA]]⟩ = .ok (.unframe [0x55, 0xFF, 0xFF, 0xAA]) ∧
  decode ⟨0b00010010, [.bytes [0x39, 0x30], .int 2345, .int 4294967295]⟩ =
    .ok (.project [0x39, 0x30] 2345 0xFFFFFFFF) ∧
  decode ⟨0b00010011, [.bytes [], .int 12345, .int 9000]⟩ = .ok (.decodeFrame [] 12345 9000) ∧
  (decodeTableWord 8 0x01).map Instr.opName = some .crc16 ∧
  (decodeTableWord 8 0x02).map Instr.opName = some .crcInit ∧
  (decodeTableWord 8 0x03).map Instr.opName = some .crcUpdate ∧
  (decodeTableWord 8 0x04).map Instr.opName = some .crcRead ∧
  (decodeTableWord 8 0x10).map Instr.opName = some .encodeFrame ∧
  (decodeTableWord 8 0x11).map Instr.opName = some .unframe ∧
  (decodeTableWord 8 0x12).map Instr.opName = some .project ∧
  (decodeTableWord 8 0x13).map Instr.opName = some .decodeFrame

/-- 30_encoding.md section 4 (R41): exactly the selectors 0x00, 0x05 to 0x0F and 0x14 to 0xFF are reserved, and an operation with
one is refused. Which reason is named is the model's choice: ReservedSelector before what else decoding finds (log entry 7) and
before a configuration that is not admitted, but after an operand expression without a value (log entry 8). -/
def Obligations.ReservedSelectorsAreRefused : Prop :=
  (∀ sel : BitVec 8,
    (sel.toNat = 0 ∨ (5 ≤ sel.toNat ∧ sel.toNat ≤ 0x0F) ∨ 0x14 ≤ sel.toNat) ↔
      ∀ vs, decode ⟨sel, vs⟩ = .error .reservedSelector) ∧
  (∀ (s : State) (h : HostId) (sel : BitVec 8) (es : List Expr) (b : Bind) (rest : List Act) (vs : List Value),
    s.agenda = .issue h sel es b :: rest → evalOperands s.vars h es = some vs →
    (sel.toNat = 0 ∨ (5 ≤ sel.toNat ∧ sel.toNat ≤ 0x0F) ∨ 0x14 ≤ sel.toNat) →
    step s = .refused .reservedSelector) ∧
  (∀ (s : State) (h : HostId) (sel : BitVec 8) (es : List Expr) (b : Bind) (rest : List Act),
    s.agenda = .issue h sel es b :: rest → evalOperands s.vars h es = none →
    (sel.toNat = 0 ∨ (5 ≤ sel.toNat ∧ sel.toNat ≤ 0x0F) ∨ 0x14 ≤ sel.toNat) →
    step s = .refused .undefinedHostExpression)

/-- 30_encoding.md section 4 (R39, R40): decode and encode agree on every instruction, with every operand at every value. -/
def Obligations.DecodeOfEncodeIsTheInstruction : Prop :=
  ∀ i : Instr, decode (encode i) = .ok i

/-- 30_encoding.md section 4 (R40 "no operand has another form"): an instruction has one request only. -/
def Obligations.EachInstructionHasOneRequest : Prop :=
  ∀ (r : Request) (i : Instr), decode r = .ok i → encode i = r

/-- 60_exceptions.md section 2 (R75's ByteOutOfRange and OriginOutOfRange): operands outside their ranges are refused by
name. That bytes are looked at before origins is the model's choice (log entry 7). -/
def Obligations.OperandsOutsideTheirRangesAreRefused : Prop :=
  (∀ (l : List Int), (∃ n ∈ l, n < 0 ∨ 255 < n) →
    decode ⟨0x01, [.bytes l]⟩ = .error .byteOutOfRange ∧
    decode ⟨0x10, [.bytes l]⟩ = .error .byteOutOfRange ∧
    decode ⟨0x11, [.bytes l]⟩ = .error .byteOutOfRange ∧
    ∀ nT nR, decode ⟨0x12, [.bytes l, .int nT, .int nR]⟩ = .error .byteOutOfRange ∧
      decode ⟨0x13, [.bytes l, .int nT, .int nR]⟩ = .error .byteOutOfRange) ∧
  (∀ n : Int, n < 0 ∨ 255 < n → decode ⟨0x03, [.int n]⟩ = .error .byteOutOfRange) ∧
  (∀ (bs : Bytes) (nT nR : Int), (nT < 0 ∨ 4294967295 < nT) ∨ (nR < 0 ∨ 4294967295 < nR) →
    decode ⟨0x12, [bytesValue bs, .int nT, .int nR]⟩ = .error .originOutOfRange ∧
    decode ⟨0x13, [bytesValue bs, .int nT, .int nR]⟩ = .error .originOutOfRange)

/-- R42: the status codes; no other is ever produced, and the outcome of UNFRAME and of DECODE, and of no other operation,
has one. -/
def Obligations.StatusCodesAreThoseOfTheTable : Prop :=
  (∀ p : Bytes, (CodecResult.ok p).status = 0x00#8) ∧
  (∀ t : TelemetryFields, (CodecResult.ok t).status = 0x00#8) ∧
  CodecError.frameTooShort.status = 0x01#8 ∧
  CodecError.badStartByte.status = 0x02#8 ∧
  CodecError.checksumMismatch.status = 0x03#8 ∧
  (∀ r : CodecResult Bytes, r.status.toNat < 4) ∧
  (∀ r : CodecResult TelemetryFields, r.status.toNat < 4) ∧
  (∀ r : CodecResult Bytes, (Result.unframed r).statusAndValue.map Prod.fst = some r.status) ∧
  (∀ r : CodecResult TelemetryFields, (Result.decoded r).statusAndValue.map Prod.fst = some r.status) ∧
  Result.nothing.statusAndValue = none ∧ (∀ v, (Result.u16 v).statusAndValue = none) ∧
  (∀ f, (Result.frame f).statusAndValue = none) ∧ (∀ t, (Result.fields t).statusAndValue = none)

/-- 30_encoding.md section 6 (R43): `-> (st, v)` binds the status, and binds `v` only when the result is `Ok`; other host
variables keep what they held. That a `v` bound before an error keeps its value, and that `-> (v, v)` leaves the Ok value or the
error's status in `v`, is the model's choice (log entry 6). -/
def Obligations.StatusLinesBindStatusAndOkValue : Prop :=
  ∀ (vars : Vars) (h : HostId) (st x : VarName),
    (∀ (r : Result) (v : Value), (∃ p, r = .unframed (.ok p) ∧ v = bytesValue p) ∨ (∃ t, r = .decoded (.ok t) ∧ v = .fields t) →
      (st ≠ x → lookupVar (bindResult vars h (.status st x) r) (h, st) = some (.int 0)) ∧
      lookupVar (bindResult vars h (.status st x) r) (h, x) = some v ∧
      ∀ k, k ≠ (h, st) → k ≠ (h, x) → lookupVar (bindResult vars h (.status st x) r) k = lookupVar vars k) ∧
    (∀ (r : Result) (e : CodecError), r = .unframed (.err e) ∨ r = .decoded (.err e) →
      lookupVar (bindResult vars h (.status st x) r) (h, st) = some (.int e.status.toNat) ∧
      ∀ k, k ≠ (h, st) → lookupVar (bindResult vars h (.status st x) r) k = lookupVar vars k)

/-! ### The operations: completion, result, frame, refusals -/

/-- R49: CRC16. -/
def Obligations.Crc16ReturnsChecksumOfData : Prop :=
  (∀ (s : State) (data : Bytes), admittedConfig s.cfg = true → data.length ≤ s.cfg.maxFrameLen →
    exec (.crc16 data) s = .next { s with result := .u16 (crc16 data) }) ∧
  (∀ (s : State) (data : Bytes), admittedConfig s.cfg = true → s.cfg.maxFrameLen < data.length →
    exec (.crc16 data) s = .refused .operandTooLong) ∧
  (∀ data : Bytes, decode ⟨0x01, [bytesValue data]⟩ = .ok (.crc16 data)) ∧
  (∀ l : List Int, (∃ n ∈ l, n < 0 ∨ 255 < n) → decode ⟨0x01, [.bytes l]⟩ = .error .byteOutOfRange) ∧
  crc16 [] = 0xFFFF#16 ∧ crc16 [0x00] = 0x40BF#16 ∧
  crc16 [0x31, 0x32, 0x33, 0x34, 0x35, 0x36, 0x37, 0x38, 0x39] = 0x4B37#16

/-- R50: CRC.INIT. -/
def Obligations.CrcInitSetsAccToInit : Prop :=
  (∀ s : State, admittedConfig s.cfg = true → s.issuer = s.owner →
    exec .crcInit s = .next { s with acc := 0xFFFF#16, result := .nothing } ∧
    exec .crcInit { s with acc := 0xFFFF#16, result := .nothing } =
      .next { s with acc := 0xFFFF#16, result := .nothing }) ∧
  decode ⟨0x02, []⟩ = .ok .crcInit ∧
  (∀ c : Config, (State.resetWith c).acc = 0xFFFF#16)

/-- R51: CRC.UPDATE. -/
def Obligations.CrcUpdateFoldsOneByteIntoAcc : Prop :=
  (∀ (s : State) (b : Byte), admittedConfig s.cfg = true → s.issuer = s.owner →
    exec (.crcUpdate b) s = .next { s with acc := crcByte s.acc b, result := .nothing }) ∧
  (∀ b : Byte, decode ⟨0x03, [.int b.toNat]⟩ = .ok (.crcUpdate b)) ∧
  (∀ n : Int, n < 0 ∨ 255 < n → decode ⟨0x03, [.int n]⟩ = .error .byteOutOfRange) ∧
  crcByte 0x0000 0x00 = 0x0000#16 ∧ crcByte 0xFFFF 0x00 = 0x40BF#16 ∧ crcByte 0xFFFF 0x31 = 0x947E#16 ∧
  crcByte (crcByte 0xFFFF 0x31) 0x31 ≠ 0xFFFF#16

/-- R52: CRC.READ. Right after reset its issuer is ACC's owner, whichever host that is. -/
def Obligations.CrcReadReturnsAccUnchanged : Prop :=
  (∀ s : State, admittedConfig s.cfg = true → s.issuer = s.owner →
    exec .crcRead s = .next { s with result := .u16 s.acc } ∧
    exec .crcRead { s with result := .u16 s.acc } = .next { s with result := .u16 s.acc }) ∧
  decode ⟨0x04, []⟩ = .ok .crcRead ∧
  (∀ (c : Config) (o : HostId), admittedConfig c = true →
    exec .crcRead { State.resetWith c with issuer := o, owner := o } =
      .next { State.resetWith c with issuer := o, owner := o, result := .u16 0xFFFF#16 }) ∧
  (∀ s : State, admittedConfig s.cfg = true → s.issuer = s.owner →
    execAll [.crcInit, .crcRead] s = .next { s with acc := 0xFFFF#16, result := .u16 0xFFFF#16 }) ∧
  (∀ s : State, admittedConfig s.cfg = true → s.issuer = s.owner →
    execAll [.crcInit, .crcUpdate 0x01, .crcUpdate 0x02, .crcRead] s =
      .next { s with acc := 0xE181#16, result := .u16 0xE181#16 })

/-- R56: ENCODE. -/
def Obligations.EncodeReturnsTheFrame : Prop :=
  (∀ (s : State) (p : Bytes), admittedConfig s.cfg = true → p.length ≤ s.cfg.maxFrameLen - 4 →
    exec (.encodeFrame p) s =
      .next { s with result := .frame ([0x55#8] ++ p ++ u16le (crc16 p) ++ [0xAA#8]) }) ∧
  (∀ (s : State) (p : Bytes), admittedConfig s.cfg = true → s.cfg.maxFrameLen - 4 < p.length →
    exec (.encodeFrame p) s = .refused .operandTooLong) ∧
  (∀ p : Bytes, decode ⟨0x10, [bytesValue p]⟩ = .ok (.encodeFrame p)) ∧
  (∀ p : Bytes, ([0x55#8] ++ p ++ u16le (crc16 p) ++ [0xAA#8]).length = p.length + 4) ∧
  frameOf [] = [0x55, 0xFF, 0xFF, 0xAA] ∧
  frameOf (List.replicate 13 0x00) = [0x55] ++ List.replicate 13 0x00 ++ [0x03, 0xEB, 0xAA]

/-- R57: the checks in their order, stopping at the first failure. `minlen >= 4` always holds (R16). -/
def Obligations.UnframeChecksRunInOrder : Prop :=
  ∀ (raw : Bytes) (minlen : Nat), 4 ≤ minlen →
    (raw.length < minlen → unframeChecks raw minlen = .ok (.err .frameTooShort)) ∧
    (minlen ≤ raw.length → raw.head? ≠ some 0x55#8 → unframeChecks raw minlen = .ok (.err .badStartByte)) ∧
    (∀ lo hi : Byte, minlen ≤ raw.length → raw.head? = some 0x55#8 →
      raw[raw.length - 3]? = some lo → raw[raw.length - 2]? = some hi →
      (crc16 ((raw.drop 1).take (raw.length - 4)) ≠ hi ++ lo →
        unframeChecks raw minlen = .ok (.err .checksumMismatch)) ∧
      (crc16 ((raw.drop 1).take (raw.length - 4)) = hi ++ lo →
        unframeChecks raw minlen = .ok (.ok ((raw.drop 1).take (raw.length - 4)))))

/-- R58: the length check, with the minimum of each operation. It looks only at the length. -/
def Obligations.LengthCheckUsesEachOperationsMinimum : Prop :=
  ∀ (s : State) (raw : Bytes) (oT oR : Word32), admittedConfig s.cfg = true → raw.length ≤ s.cfg.maxFrameLen →
    (exec (.unframe raw) s = .next { s with result := .unframed (.err .frameTooShort) } ↔
      raw.length < s.cfg.frameMinLen) ∧
    (exec (.decodeFrame raw oT oR) s = .next { s with result := .decoded (.err .frameTooShort) } ↔
      raw.length < s.cfg.tlmMinLen)

/-- R59: the start-byte check, after the length check. -/
def Obligations.StartByteCheckFollowsLengthCheck : Prop :=
  ∀ (s : State) (raw : Bytes) (oT oR : Word32), admittedConfig s.cfg = true → raw.length ≤ s.cfg.maxFrameLen →
    (exec (.unframe raw) s = .next { s with result := .unframed (.err .badStartByte) } ↔
      s.cfg.frameMinLen ≤ raw.length ∧ raw[0]? ≠ some 0x55#8) ∧
    (exec (.decodeFrame raw oT oR) s = .next { s with result := .decoded (.err .badStartByte) } ↔
      s.cfg.tlmMinLen ≤ raw.length ∧ raw[0]? ≠ some 0x55#8)

/-- R60: the CRC check, over exactly the payload region. -/
def Obligations.CrcCheckCoversThePayloadRegion : Prop :=
  ∀ (raw : Bytes) (minlen : Nat) (lo hi : Byte), 4 ≤ minlen → minlen ≤ raw.length → raw[0]? = some 0x55#8 →
    raw[raw.length - 3]? = some lo → raw[raw.length - 2]? = some hi →
    ((raw.drop 1).take (raw.length - 4)).length = raw.length - 4 ∧
    (unframeChecks raw minlen = .ok (.err .checksumMismatch) ↔
      crc16 ((raw.drop 1).take (raw.length - 4)) ≠ hi ++ lo)

/-- R61: a buffer `body ++ [last]` that passes the three checks succeeds whatever its last byte is, with the payload region
as payload; the last byte makes no difference to any outcome. -/
def Obligations.EndByteIsNotChecked : Prop :=
  ∀ (body : Bytes) (minlen : Nat), 4 ≤ minlen →
    (∀ last last' : Byte, unframeChecks (body ++ [last]) minlen = unframeChecks (body ++ [last']) minlen) ∧
    (∀ (lo hi last : Byte), minlen ≤ body.length + 1 → body.head? = some 0x55#8 →
      body[body.length - 2]? = some lo → body[body.length - 1]? = some hi →
      crc16 ((body.drop 1).take (body.length - 3)) = hi ++ lo →
      unframeChecks (body ++ [last]) minlen = .ok (.ok ((body.drop 1).take (body.length - 3)))) ∧
    (∀ (p : Bytes) (last : Byte), unframeChecks (body ++ [last]) minlen = .ok (.ok p) →
      p = (body.drop 1).take (body.length - 3))

/-- R62: UNFRAME returns the outcome of the checks with FRAME_MIN_LEN, and only its result changes. -/
def Obligations.UnframeReturnsTheOutcomeOfTheChecks : Prop :=
  (∀ (s : State) (raw : Bytes), admittedConfig s.cfg = true → raw.length ≤ s.cfg.maxFrameLen →
    ∃ r, unframeChecks raw s.cfg.frameMinLen = .ok r ∧
      exec (.unframe raw) s = .next { s with result := .unframed r }) ∧
  (∀ (s : State) (raw : Bytes), admittedConfig s.cfg = true → s.cfg.maxFrameLen < raw.length →
    exec (.unframe raw) s = .refused .operandTooLong) ∧
  (∀ raw : Bytes, decode ⟨0x11, [bytesValue raw]⟩ = .ok (.unframe raw)) ∧
  unframeChecks [0x55, 0xFF, 0xFF, 0xAA] 4 = .ok (.ok []) ∧
  (∀ raw : Bytes, raw.length = 3 → unframeChecks raw 4 = .ok (.err .frameTooShort)) ∧
  unframeChecks ([0x55] ++ List.replicate 13 0x00 ++ [0x03, 0xEB, 0xAA]) 4 = .ok (.ok (List.replicate 13 0x00))

/-- R63: PROJECT reads the two angles at payload offsets 6 and 10 and subtracts the origins exactly. -/
def Obligations.ProjectReadsTheTwoAngles : Prop :=
  (∀ (s : State) (p : Bytes) (oT oR : Word32), admittedConfig s.cfg = true → 14 ≤ p.length →
    p.length ≤ s.cfg.maxFrameLen - 4 →
    ∃ rawT rawR, readU32LE p 6 = .ok rawT ∧ readU32LE p 10 = .ok rawR ∧
      exec (.project p oT oR) s = .next { s with
        result := .fields ⟨p, rawT, rawR, (rawT.toNat : Int) - (oT.toNat : Int), (rawR.toNat : Int) - (oR.toNat : Int)⟩ }) ∧
  (∀ (s : State) (p : Bytes) (oT oR : Word32), admittedConfig s.cfg = true → p.length < 14 →
    exec (.project p oT oR) s = .refused .payloadTooShortForTelemetry) ∧
  (∀ (s : State) (p : Bytes) (oT oR : Word32), admittedConfig s.cfg = true → s.cfg.maxFrameLen - 4 < p.length →
    exec (.project p oT oR) s = .refused .operandTooLong) ∧
  (∀ (p : Bytes) (oT oR : Word32),
    decode ⟨0x12, [bytesValue p, .int oT.toNat, .int oR.toNat]⟩ = .ok (.project p oT oR)) ∧
  (∀ (p : Bytes) (nT nR : Int), (nT < 0 ∨ 4294967295 < nT) ∨ (nR < 0 ∨ 4294967295 < nR) →
    decode ⟨0x12, [bytesValue p, .int nT, .int nR]⟩ = .error .originOutOfRange) ∧
  angleRotation 0xFFFFFFFF 0 = 4294967295 ∧ angleRotation 0 0xFFFFFFFF = -4294967295 ∧ (∀ o, angleRotation o o = 0)

/-- 41_packet_codec.md section 3 (R64): DECODE is the checks with TLM_MIN_LEN, then PROJECT. That the payload then has at least
14 bytes, so that PROJECT's length refusal cannot happen, is the spec's own derivation (from R58 and R60). -/
def Obligations.DecodeIsUnframeThenProject : Prop :=
  (∀ (s : State) (raw : Bytes) (oT oR : Word32), admittedConfig s.cfg = true → raw.length ≤ s.cfg.maxFrameLen →
    (∃ e, unframeChecks raw s.cfg.tlmMinLen = .ok (.err e) ∧
      exec (.decodeFrame raw oT oR) s = .next { s with result := .decoded (.err e) }) ∨
    (∃ p rawT rawR, unframeChecks raw s.cfg.tlmMinLen = .ok (.ok p) ∧ 14 ≤ p.length ∧
      readU32LE p 6 = .ok rawT ∧ readU32LE p 10 = .ok rawR ∧
      exec (.decodeFrame raw oT oR) s = .next { s with
        result := .decoded (.ok ⟨p, rawT, rawR, (rawT.toNat : Int) - (oT.toNat : Int), (rawR.toNat : Int) - (oR.toNat : Int)⟩) })) ∧
  (∀ (s : State) (raw : Bytes) (oT oR : Word32), admittedConfig s.cfg = true → s.cfg.maxFrameLen < raw.length →
    exec (.decodeFrame raw oT oR) s = .refused .operandTooLong) ∧
  (∀ (raw : Bytes) (oT oR : Word32),
    decode ⟨0x13, [bytesValue raw, .int oT.toNat, .int oR.toNat]⟩ = .ok (.decodeFrame raw oT oR)) ∧
  (∀ (raw : Bytes) (nT nR : Int), (nT < 0 ∨ 4294967295 < nT) ∨ (nR < 0 ∨ 4294967295 < nR) →
    decode ⟨0x13, [bytesValue raw, .int nT, .int nR]⟩ = .error .originOutOfRange)

/-- R65: the rotation is exact, fits 33 bits of two's complement, and degrees are the exact rational. -/
def Obligations.RotationIsExactAndFits33Bits : Prop :=
  (∀ raw o : Word32,
    angleRotation raw o = (raw.toNat : Int) - (o.toNat : Int) ∧
    -(2 ^ 32 - 1) ≤ angleRotation raw o ∧ angleRotation raw o ≤ 2 ^ 32 - 1 ∧
    (rotationBits (angleRotation raw o)).toInt = angleRotation raw o) ∧
  (∀ rot : Int, degrees rot * 100 = (rot : Rat)) ∧
  degrees 10000 = 100 ∧ degrees 12345 = 12345 / 100

/-- 30_encoding.md section 2 (R37): only payload bytes 6 to 13 decide the two angles, which in frame offsets stand at 7 to
14. -/
def Obligations.OnlyTheAngleBytesDecideTheAngles : Prop :=
  (∀ (p q : Bytes) (oT oR : Word32) (f g : TelemetryFields), (p.drop 6).take 8 = (q.drop 6).take 8 →
    projectFields p oT oR = .ok f → projectFields q oT oR = .ok g →
    f.rawT = g.rawT ∧ f.rawR = g.rawR ∧ f.rotT = g.rotT ∧ f.rotR = g.rotR ∧ f.payload = p ∧ g.payload = q) ∧
  (∀ (raw p : Bytes) (minlen : Nat), 18 ≤ minlen → unframeChecks raw minlen = .ok (.ok p) →
    readU32LE p 6 = readU32LE raw 7 ∧ readU32LE p 10 = readU32LE raw 11)

/-- R66: an error result carries no payload and no field, and what the block returns depends on no byte of a frame that
failed a check: two frames that fail with the same code leave the same state. -/
def Obligations.ErrorResultsRevealNothingOfTheFrame : Prop :=
  (∀ (s t u : State) (raw raw' : Bytes) (e : CodecError),
    exec (.unframe raw) s = .next t → t.result = .unframed (.err e) →
    exec (.unframe raw') s = .next u → u.result = .unframed (.err e) → t = u) ∧
  (∀ (s t u : State) (raw raw' : Bytes) (oT oR oT' oR' : Word32) (e : CodecError),
    exec (.decodeFrame raw oT oR) s = .next t → t.result = .decoded (.err e) →
    exec (.decodeFrame raw' oT' oR') s = .next u → u.result = .decoded (.err e) → t = u)

/-- 41_packet_codec.md section 4 (derived in R67): what ENCODE frames, UNFRAME and DECODE return. -/
def Obligations.UnframeAndDecodeInvertEncode : Prop :=
  (∀ (s t : State) (p f : Bytes), exec (.encodeFrame p) s = .next t → t.result = .frame f →
    s.cfg.frameMinLen ≤ p.length + 4 →
    exec (.unframe f) t = .next { s with result := .unframed (.ok p) }) ∧
  (∀ (s t : State) (p f : Bytes) (oT oR : Word32), exec (.encodeFrame p) s = .next t → t.result = .frame f →
    s.cfg.tlmMinLen ≤ p.length + 4 →
    ∃ d, exec (.decodeFrame f oT oR) t = .next { s with result := .decoded (.ok d) } ∧ d.payload = p)

/-- 41_packet_codec.md section 4 (derived in R68): any change of one payload byte of a frame is reported as
ChecksumMismatch, by UNFRAME and by DECODE. -/
def Obligations.OneChangedPayloadByteIsDetected : Prop :=
  ∀ (s : State) (p : Bytes) (k : Nat) (b : Byte) (oT oR : Word32), admittedConfig s.cfg = true →
    p.length + 4 ≤ s.cfg.maxFrameLen → k < p.length → p[k]? ≠ some b →
    (s.cfg.frameMinLen ≤ p.length + 4 →
      exec (.unframe ((frameOf p).set (1 + k) b)) s = .next { s with result := .unframed (.err .checksumMismatch) }) ∧
    (s.cfg.tlmMinLen ≤ p.length + 4 →
      exec (.decodeFrame ((frameOf p).set (1 + k) b) oT oR) s =
        .next { s with result := .decoded (.err .checksumMismatch) })

/-- 41_packet_codec.md section 4 (derived in R69): the other single-byte corruptions, and a frame without its last byte. -/
def Obligations.OtherSingleByteCorruptions : Prop :=
  ∀ (p : Bytes) (minlen : Nat) (b : Byte), 4 ≤ minlen → minlen ≤ p.length + 4 →
    (b ≠ 0x55#8 → unframeChecks ((frameOf p).set 0 b) minlen = .ok (.err .badStartByte)) ∧
    ((frameOf p)[p.length + 1]? ≠ some b →
      unframeChecks ((frameOf p).set (p.length + 1) b) minlen = .ok (.err .checksumMismatch)) ∧
    ((frameOf p)[p.length + 2]? ≠ some b →
      unframeChecks ((frameOf p).set (p.length + 2) b) minlen = .ok (.err .checksumMismatch)) ∧
    unframeChecks ((frameOf p).set (p.length + 3) b) minlen = .ok (.ok p) ∧
    (p.length + 3 < minlen → unframeChecks (frameOf p).dropLast minlen = .ok (.err .frameTooShort)) ∧
    (∀ (q : Bytes) (x : Byte), p = q ++ [x] → minlen ≤ p.length + 3 →
      unframeChecks (frameOf p).dropLast minlen =
        if crc16 q = (crc16 p).extractLsb' 0 8 ++ x then .ok (.ok q) else .ok (.err .checksumMismatch))

/-! ### What operations change and depend on -/

/-- R14: only CRC.INIT and CRC.UPDATE write ACC, no other operation but CRC.READ reads it, and it resets to 0xFFFF. -/
def Obligations.OnlyInitAndUpdateWriteAcc : Prop :=
  (∀ (i : Instr) (s t : State), exec i s = .next t →
    t.acc = match i with
      | .crcInit => 0xFFFF#16
      | .crcUpdate b => crcByte s.acc b
      | _ => s.acc) ∧
  (∀ (s t : State), exec .crcRead s = .next t → t.result = .u16 s.acc) ∧
  (∀ (i : Instr) (s t : State) (a : Word16), i.usesAcc = false → exec i s = .next t →
    exec i { s with acc := a } = .next { t with acc := a }) ∧
  (∀ c : Config, (State.resetWith c).acc = 0xFFFF#16)

/-- R19: an operation changes nothing but ACC and the result it hands over, and depends on nothing an earlier operation left
behind but ACC. -/
def Obligations.NothingButAccSurvivesAnOperation : Prop :=
  (∀ (i : Instr) (s t : State), exec i s = .next t → t = { s with acc := t.acc, result := t.result }) ∧
  (∀ (i : Instr) (s t : State) (r : Result) (vars : Vars) (agenda : List Act), exec i s = .next t →
    exec i { s with result := r, vars := vars, agenda := agenda } = .next { t with vars := vars, agenda := agenda }) ∧
  (∀ (i : Instr) (s : State) (e : Refusal) (r : Result) (vars : Vars) (agenda : List Act), exec i s = .refused e →
    exec i { s with result := r, vars := vars, agenda := agenda } = .refused e)

/-- 20_memory.md section 4 (R31, decision D18): a pure operation leaves no trace in what any later operation does, so pure
operations may stand in any order. -/
def Obligations.PureOperationsDoNotAffectLaterOnes : Prop :=
  ∀ (i j : Instr) (s t : State), i.usesAcc = false → exec i s = .next t → exec j t = exec j s

/-- R72: an error is a result. The operation ends in a next state that differs in its result alone, the result names the check
that failed first (the outcome of R57's checks), and the next operation runs as it would have without it. -/
def Obligations.ErrorIsAResultNotATrap : Prop :=
  (∀ (raw : Bytes) (s t : State) (e : CodecError), exec (.unframe raw) s = .next t →
    t.result = .unframed (.err e) →
    t = { s with result := .unframed (.err e) } ∧ unframeChecks raw s.cfg.frameMinLen = .ok (.err e) ∧
      ∀ j, exec j t = exec j s) ∧
  (∀ (raw : Bytes) (oT oR : Word32) (s t : State) (e : CodecError), exec (.decodeFrame raw oT oR) s = .next t →
    t.result = .decoded (.err e) →
    t = { s with result := .decoded (.err e) } ∧ unframeChecks raw s.cfg.tlmMinLen = .ok (.err e) ∧
      ∀ j, exec j t = exec j s) ∧
  (∀ (i : Instr) (s : State) (f : Fault), exec i s ≠ .fault f)

/-- 60_exceptions.md section 2 (R75): an operation completes exactly when it is admitted, in every other case it is refused. -/
def Obligations.OperationsCompleteExactlyWhenAdmitted : Prop :=
  ∀ (i : Instr) (s : State),
    (Admitted i s → ∃ t, exec i s = .next t) ∧ (¬ Admitted i s → ∃ r, exec i s = .refused r)

/-- 60_exceptions.md section 2 (R75 "unreachable from an admitted operation"): no operation reads a field past the end of its
list, in any state. -/
def Obligations.NoOperationReadsAFieldOutOfBounds : Prop :=
  ∀ (i : Instr) (s : State), exec i s ≠ .refused .fieldOutOfBounds

/-- 10_state.md section 2 (R16), 60_exceptions.md section 2 (R75): the admitted configurations, that any other is refused, and
that nothing changes the configuration. That BadConfiguration is the reason named whatever else also holds, and that CRC.INIT
and CRC.READ are refused with it too, is the model's choice and its reading of R16 and R75 (log entry 8). -/
def Obligations.ConfigurationIsCheckedAndFixed : Prop :=
  (∀ c : Config, admittedConfig c = true ↔
    4 ≤ c.frameMinLen ∧ (c.tlmMinLen = 18 ∨ c.tlmMinLen = 19) ∧ c.tlmMinLen ≤ c.maxFrameLen) ∧
  (∀ (i : Instr) (s : State), admittedConfig s.cfg = false → exec i s = .refused .badConfiguration) ∧
  (∀ s t : State, step s = .next t → t.cfg = s.cfg)

/-- R79: a pure operation gives any host the result its operands decide; an ACC operation is its owner's alone. -/
def Obligations.AccBelongsToItsOwner : Prop :=
  (∀ (i : Instr) (s t : State) (issuer owner : HostId) (a : Word16), i.usesAcc = false → exec i s = .next t →
    exec i { s with issuer := issuer, owner := owner, acc := a } =
      .next { t with issuer := issuer, owner := owner, acc := a }) ∧
  (∀ (i : Instr) (s : State), admittedConfig s.cfg = true → i.usesAcc = true → s.issuer ≠ s.owner →
    exec i s = .refused .concurrentAccUse)

/-! ### Sequences of operations -/

/-- 40_crc16_engine.md section 3 (derived in R53): after CRC.INIT, whatever pure operations and CRC.READs stand between the
CRC.UPDATEs, ACC is the checksum of the bytes fed, in order; without CRC.INIT it continues from what it held (R85). -/
def Obligations.AccIsTheChecksumOfTheBytesFed : Prop :=
  ∀ (ops : List Instr) (s t : State), (∀ i ∈ ops, i ≠ .crcInit) →
    (execAll (.crcInit :: ops) s = .next t → t.acc = crc16 (ops.filterMap Instr.fedByte)) ∧
    (execAll ops s = .next t → t.acc = crc16From s.acc (ops.filterMap Instr.fedByte))

/-- 40_crc16_engine.md section 3 (derived in R53): byte-serial and whole-list computation agree, and the sequence completes. -/
def Obligations.ByteSerialAgreesWithWholeList : Prop :=
  ∀ (s : State) (data : Bytes), admittedConfig s.cfg = true → s.issuer = s.owner →
    execAll (.crcInit :: data.map .crcUpdate) s = .next { s with acc := crc16 data, result := .nothing }

/-- 70_reset_and_hazards.md section 2 (derived in R85): without CRC.INIT the new bytes continue the previous computation. -/
def Obligations.StaleAccumulatorContinues : Prop :=
  ∀ (s : State) (previous data : Bytes), admittedConfig s.cfg = true → s.issuer = s.owner → s.acc = crc16 previous →
    ∃ t, execAll (data.map .crcUpdate) s = .next t ∧ t.acc = crc16 (previous ++ data)

/-- R44: the pseudo-operation CRC.SEQ, as the lines it expands to, run step by step. Its result equals CRC16's, and it leaves
ACC equal to that result. -/
def Obligations.CrcSeqComputesCrc16 : Prop :=
  (∀ (s : State) (h : HostId) (data : Bytes) (x : VarName) (rest : List Act), admittedConfig s.cfg = true →
    s.owner = h → s.agenda = crcSeqLines h data x ++ rest →
    ∃ t, runSteps (data.length + 2) s = .next t ∧ t.acc = crc16 data ∧
      lookupVar t.vars (h, x) = some (.int (crc16 data).toNat) ∧ t.agenda = rest) ∧
  (∀ data : Bytes, crcSeq data = .crcInit :: (data.map .crcUpdate ++ [.crcRead])) ∧
  (∀ (h : HostId) (x : VarName), crcSeqLines h [] x =
    [.issue h 0x02 [] .nothing, .issue h 0x04 [] (.value x)]) ∧
  crc16 [] = 0xFFFF#16

/-! ### Reset and steps -/

/-- 70_reset_and_hazards.md section 1 (R82): reset sets ACC to 0xFFFF and nothing else, and any operation may be the first one
after it. That an ACC operation is admitted in the reset state rests on the model's choice that issuer and owner are both host 0
there (log entry 4). -/
def Obligations.ResetSetsAccAndNothingElse : Prop :=
  (∀ (s : State) (rest : List Act), s.agenda = .reset :: rest →
    step s = .next { s with acc := 0xFFFF#16, agenda := rest }) ∧
  (∀ c : Config, (State.resetWith c).acc = 0xFFFF#16 ∧ (State.resetWith c).cfg = c) ∧
  (∀ (c : Config) (i : Instr), admittedConfig c = true → i.wf c = true →
    ∃ t, exec i (State.resetWith c) = .next t)

/-- The model's step (log entries 1 and 6; 10_state.md R15, 30_encoding.md R39, R43): when the act at the head of the agenda
issues a request that decodes to an instruction, the step is exec of it for that host, with the act taken off the agenda and
the result bound to the host's variables. -/
def Obligations.StepRunsTheDecodedOperation : Prop :=
  ∀ (s : State) (h : HostId) (sel : BitVec 8) (es : List Expr) (b : Bind) (rest : List Act) (vs : List Value)
    (i : Instr), s.agenda = .issue h sel es b :: rest → evalOperands s.vars h es = some vs → decode ⟨sel, vs⟩ = .ok i →
    (∀ t, exec i { s with issuer := h, agenda := rest } = .next t →
      step s = .next { t with vars := bindResult t.vars h b t.result }) ∧
    (∀ r, exec i { s with issuer := h, agenda := rest } = .refused r → step s = .refused r)

/-- The model's placing of an instruction (log entry 5): the step after it runs exactly the instruction the decoder reads
from the opcode-table word. -/
def Obligations.StepRunsAPlacedTableWord : Prop :=
  ∀ (s t : State) (nbits w : Nat) (i : Instr), decodeTableWord nbits w = some i →
    exec i { s with issuer := s.owner } = .next t → step (s.withFetchWord nbits w) = .next t

/-- 10_state.md section 1 (R13) and the model's step (log entries 1, 4, 6): with nothing to do the block does nothing; a HOST
step and the passing of ownership touch neither ACC nor the result. -/
def Obligations.HostStepsLeaveTheBlockAlone : Prop :=
  (∀ s : State, s.agenda = [] → step s = .next s) ∧
  (∀ (s : State) (h : HostId) (x : VarName) (e : Expr) (v : Value) (rest : List Act),
    s.agenda = .hostStep h x e :: rest → evalExpr s.vars h e = some v →
    step s = .next { s with vars := bindVar s.vars (h, x) v, agenda := rest }) ∧
  (∀ (s : State) (h : HostId) (rest : List Act), s.agenda = .passAcc h :: rest →
    step s = .next { s with owner := h, agenda := rest })

/-- 70_reset_and_hazards.md section 3 (R90) in the model's step (log entry 1): each step takes one act, so a program whose
operations are not refused is at its end after as many steps as it has acts, and one whose next act is refused stops there. -/
def Obligations.ProgramsEndAfterTheirLastAct : Prop :=
  (∀ (s t : State) (a : Act) (rest : List Act), s.agenda = a :: rest → step s = .next t → t.agenda = rest) ∧
  (∀ s t : State, runSteps s.agenda.length s = .next t → t.agenda = []) ∧
  (∀ (s : State) (r : Refusal) (k : Nat), step s = .refused r → runSteps (k + 1) s = .refused r)

/-- The model's invariant (10_state.md R16, 30_encoding.md R40, log entry 6): from every state that meets it, a step keeps the
configuration admitted, the result in range, and each host variable bound once. -/
def Obligations.EveryStepKeepsTheInvariant : Prop :=
  ∀ s t : State, Inv s → step s = .next t → Inv t

/-- The invariant holds right after reset, under every admitted configuration. -/
def Obligations.ResetMeetsTheInvariant : Prop :=
  (∀ c : Config, admittedConfig c = true → Inv (State.resetWith c)) ∧ Inv State.reset

/-- 30_encoding.md section 6 (R43): `-> v` binds the result of its operation to `v`, in the form R40 gives it, for every form;
other host variables keep what they held. That a line binds nothing where the operation returns nothing, and a status line
nothing where it has no status, is the model's choice (log entry 6). -/
def Obligations.ValueLinesBindTheResult : Prop :=
  ∀ (vars : Vars) (h : HostId) (x : VarName),
    (∀ (r : Result) (v : Value),
      (∃ c, r = .u16 c ∧ v = .int c.toNat) ∨ (∃ f, r = .frame f ∧ v = bytesValue f) ∨
        (∃ u, r = .unframed u ∧ v = .unframed u) ∨ (∃ t, r = .fields t ∧ v = .fields t) ∨
        (∃ d, r = .decoded d ∧ v = .decoded d) →
      lookupVar (bindResult vars h (.value x) r) (h, x) = some v ∧
      ∀ k, k ≠ (h, x) → lookupVar (bindResult vars h (.value x) r) k = lookupVar vars k) ∧
    bindResult vars h (.value x) .nothing = vars ∧
    (∀ (st : VarName) (r : Result),
      r = .nothing ∨ (∃ c, r = .u16 c) ∨ (∃ f, r = .frame f) ∨ (∃ t, r = .fields t) →
      bindResult vars h (.status st x) r = vars) ∧
    (∀ r : Result, bindResult vars h .nothing r = vars)
end

