-- ==== Sys2Proof/Laws/Decode.lean ====
section
/-! SUPPORT. The small lemmas of the decoder: what its range checks accept, and that they lose nothing. -/

namespace Sys2Proof

open Machine (bytesValue byteValue originValue)

/-- A step of a decoding computation: it went on exactly when the first part gave a value. -/
theorem decode_bind_eq_ok {α β : Type} {x : Except DecodeError α} {f : α → Except DecodeError β} {b : β} :
    (x >>= f) = .ok b ↔ ∃ a, x = .ok a ∧ f a = .ok b := by
  cases x <;> simp [bind, Except.bind]

theorem asByte_toNat (b : Byte) : asByte (b.toNat : Int) = .ok b := by
  have := b.isLt
  unfold asByte
  rw [if_pos (by omega)]
  simp

theorem asOrigin_toNat (o : Word32) : asOrigin (o.toNat : Int) = .ok o := by
  have := o.isLt
  unfold asOrigin
  rw [if_pos (by omega)]
  simp

theorem asBytes_map_toNat (l : Bytes) : asBytes (l.map fun b => (b.toNat : Int)) = .ok l := by
  induction l with
  | nil => rfl
  | cons b l ih =>
    simp only [List.map_cons, asBytes, asByte_toNat, ih]
    rfl

theorem asByte_eq_ok {n : Int} {b : Byte} (h : asByte n = .ok b) : (b.toNat : Int) = n := by
  unfold asByte at h
  split at h
  · cases h
    simp
    omega
  · simp at h

theorem asOrigin_eq_ok {n : Int} {o : Word32} (h : asOrigin n = .ok o) : (o.toNat : Int) = n := by
  unfold asOrigin at h
  split at h
  · cases h
    simp
    omega
  · simp at h

theorem asBytes_eq_ok {l : List Int} {bs : Bytes} (h : asBytes l = .ok bs) : (bs.map fun b => (b.toNat : Int)) = l := by
  induction l generalizing bs with
  | nil => cases h; rfl
  | cons n l ih =>
    obtain ⟨b, hb, h⟩ := decode_bind_eq_ok.1 h
    obtain ⟨bs', hbs, h⟩ := decode_bind_eq_ok.1 h
    cases h
    simp [asByte_eq_ok hb, ih hbs]

/-- The decoder's selector table is the encoder's, read the other way. -/
theorem decodeSelector_eq_some {sel : BitVec 8} {op : OpName} : decodeSelector sel = some op ↔ op.selector = sel := by
  constructor
  · intro h
    unfold decodeSelector at h
    repeat' split at h
    all_goals first | (cases h; subst sel; rfl) | simp at h
  · rintro rfl
    cases op <;> rfl

end Sys2Proof
end

