-- ==== Sys2Proof/Laws/State.lean ====
section
/-! SUPPORT. One lemma per field per update of State, each true by rfl, so that later proofs unfold no record update. -/

namespace Sys2Proof.Machine

@[simp] theorem handResult_acc (s : State) (r : Result) : (s.handResult r).acc = s.acc := rfl
@[simp] theorem handResult_cfg (s : State) (r : Result) : (s.handResult r).cfg = s.cfg := rfl
@[simp] theorem handResult_owner (s : State) (r : Result) : (s.handResult r).owner = s.owner := rfl
@[simp] theorem handResult_issuer (s : State) (r : Result) : (s.handResult r).issuer = s.issuer := rfl
@[simp] theorem handResult_result (s : State) (r : Result) : (s.handResult r).result = r := rfl
@[simp] theorem handResult_vars (s : State) (r : Result) : (s.handResult r).vars = s.vars := rfl
@[simp] theorem handResult_agenda (s : State) (r : Result) : (s.handResult r).agenda = s.agenda := rfl

@[simp] theorem writeAcc_acc (s : State) (v : Word16) : (s.writeAcc v).acc = v := rfl
@[simp] theorem writeAcc_cfg (s : State) (v : Word16) : (s.writeAcc v).cfg = s.cfg := rfl
@[simp] theorem writeAcc_owner (s : State) (v : Word16) : (s.writeAcc v).owner = s.owner := rfl
@[simp] theorem writeAcc_issuer (s : State) (v : Word16) : (s.writeAcc v).issuer = s.issuer := rfl
@[simp] theorem writeAcc_result (s : State) (v : Word16) : (s.writeAcc v).result = s.result := rfl
@[simp] theorem writeAcc_vars (s : State) (v : Word16) : (s.writeAcc v).vars = s.vars := rfl
@[simp] theorem writeAcc_agenda (s : State) (v : Word16) : (s.writeAcc v).agenda = s.agenda := rfl

@[simp] theorem readAcc_eq (s : State) : s.readAcc = s.acc := rfl

@[simp] theorem afterReset_acc (s : State) : s.afterReset.acc = INIT := rfl
@[simp] theorem afterReset_cfg (s : State) : s.afterReset.cfg = s.cfg := rfl
@[simp] theorem afterReset_owner (s : State) : s.afterReset.owner = s.owner := rfl
@[simp] theorem afterReset_issuer (s : State) : s.afterReset.issuer = s.issuer := rfl
@[simp] theorem afterReset_result (s : State) : s.afterReset.result = s.result := rfl
@[simp] theorem afterReset_vars (s : State) : s.afterReset.vars = s.vars := rfl
@[simp] theorem afterReset_agenda (s : State) : s.afterReset.agenda = s.agenda := rfl

@[simp] theorem resetWith_acc (c : Config) : (State.resetWith c).acc = INIT := rfl
@[simp] theorem resetWith_cfg (c : Config) : (State.resetWith c).cfg = c := rfl
@[simp] theorem resetWith_agenda (c : Config) : (State.resetWith c).agenda = [] := rfl
@[simp] theorem resetWith_vars (c : Config) : (State.resetWith c).vars = [] := rfl
@[simp] theorem resetWith_result (c : Config) : (State.resetWith c).result = .nothing := rfl

/-- Placing an instruction changes the agenda alone. -/
@[simp] theorem withFetchWord_acc (s : State) (nbits w : Nat) : (s.withFetchWord nbits w).acc = s.acc := rfl
@[simp] theorem withFetchWord_cfg (s : State) (nbits w : Nat) : (s.withFetchWord nbits w).cfg = s.cfg := rfl
@[simp] theorem withFetchWord_owner (s : State) (nbits w : Nat) : (s.withFetchWord nbits w).owner = s.owner := rfl
@[simp] theorem withFetchWord_issuer (s : State) (nbits w : Nat) : (s.withFetchWord nbits w).issuer = s.issuer := rfl
@[simp] theorem withFetchWord_result (s : State) (nbits w : Nat) : (s.withFetchWord nbits w).result = s.result := rfl
@[simp] theorem withFetchWord_vars (s : State) (nbits w : Nat) : (s.withFetchWord nbits w).vars = s.vars := rfl
@[simp] theorem withFetchWord_agenda (s : State) (nbits w : Nat) :
    (s.withFetchWord nbits w).agenda = tableLine s.owner nbits w :: s.agenda := rfl

end Sys2Proof.Machine
end

