-- ==== Sys2Proof/Laws/Ops.lean ====
section
/-! SUPPORT. One lemma per shared operation: everything it can do. Provers cite these instead of unfolding. -/

namespace Sys2Proof.Machine

/-! ### Ending an operation, and the checks -/

theorem finish_eq_next {c : Checked State} {t : State} : finish c = .next t ↔ c = .ok t := by
  cases c <;> simp [finish]

theorem finish_eq_refused {c : Checked State} {r : Refusal} : finish c = .refused r ↔ c = .error r := by
  cases c <;> simp [finish]

/-- A step of a checked computation: it went on exactly when the first part gave a value. -/
theorem checked_bind_eq_ok {α β : Type} {x : Checked α} {f : α → Checked β} {b : β} :
    (x >>= f) = .ok b ↔ ∃ a, x = .ok a ∧ f a = .ok b := by
  cases x <;> simp [bind, Except.bind]

@[simp] theorem require_true (r : Refusal) : require true r = .ok () := rfl
@[simp] theorem require_false (r : Refusal) : require false r = .error r := rfl

theorem require_eq_ok {p : Bool} {r : Refusal} {u : Unit} : require p r = .ok u ↔ p = true := by
  cases p <;> simp

theorem require_eq_error {p : Bool} {r r' : Refusal} : require p r = .error r' ↔ p = false ∧ r' = r := by
  cases p <;> simp [eq_comm]

theorem checkConfig_eq_ok {s : State} {u : Unit} : checkConfig s = .ok u ↔ admittedConfig s.cfg = true := require_eq_ok

theorem checkOwner_eq_ok {s : State} {u : Unit} : checkOwner s = .ok u ↔ s.issuer = s.owner := by
  simp [checkOwner, require_eq_ok]

theorem checkLength_eq_ok {l : Bytes} {n : Nat} {u : Unit} : checkLength l n = .ok u ↔ l.length ≤ n := by
  simp [checkLength, require_eq_ok]

/-- The admitted configurations, as R16 lists them. -/
theorem admittedConfig_iff {c : Config} : admittedConfig c = true ↔
    4 ≤ c.frameMinLen ∧ (c.tlmMinLen = 18 ∨ c.tlmMinLen = 19) ∧ c.tlmMinLen ≤ c.maxFrameLen := by
  simp only [admittedConfig, FRAME_MIN_FLOOR, Bool.and_eq_true, Bool.or_eq_true, decide_eq_true_eq, beq_iff_eq, and_assoc]

/-! ### The CRC functions -/

theorem crc16From_nil (c : Word16) : crc16From c [] = c := rfl

theorem crc16From_cons (c : Word16) (b : Byte) (l : Bytes) : crc16From c (b :: l) = crc16From (crcByte c b) l := rfl

theorem crc16From_append (c : Word16) (a b : Bytes) : crc16From c (a ++ b) = crc16From (crc16From c a) b := by
  simp [crc16From]

/-- `XOROUT` is zero: the checksum is the fold itself. -/
theorem crc16_eq_crc16From (data : Bytes) : crc16 data = crc16From INIT data := by
  simp [crc16, XOROUT]

/-- A bit step is linear over XOR. -/
theorem crcBitstep_xor (c d : Word16) : crcBitstep (c ^^^ d) = crcBitstep c ^^^ crcBitstep d := by
  unfold crcBitstep
  rw [BitVec.getLsbD_xor, BitVec.ushiftRight_xor_distrib]
  cases c.getLsbD 0 <;> cases d.getLsbD 0 <;>
    simp only [Bool.xor_false, Bool.xor_true, Bool.not_true, Bool.not_false, if_true, Bool.false_eq_true, if_false]
  · rw [BitVec.xor_assoc]
  · ac_rfl
  · rw [show c >>> 1 ^^^ POLY ^^^ (d >>> 1 ^^^ POLY) = c >>> 1 ^^^ d >>> 1 ^^^ (POLY ^^^ POLY) by ac_rfl]
    simp

/-- The bit a step shifts out comes back as bit 15, since bit 15 of POLY is set. -/
theorem crcBitstep_bit15 (c : Word16) : (crcBitstep c).getLsbD 15 = c.getLsbD 0 := by
  unfold crcBitstep
  split <;> rename_i h <;> simp_all [POLY]

/-- Only zero steps to zero: the register's steps lose nothing. -/
theorem crcBitstep_eq_zero {c : Word16} (h : crcBitstep c = 0) : c = 0 := by
  have h0 : c.getLsbD 0 = false := by rw [← crcBitstep_bit15, h]; rfl
  have hs : c >>> 1 = 0#16 := by rw [crcBitstep, h0] at h; exact h
  apply BitVec.eq_of_getLsbD_eq
  intro i hi
  cases i with
  | zero => simpa using h0
  | succ i =>
    have := congrArg (fun v => v.getLsbD i) hs
    simpa [Nat.add_comm] using this

theorem crcBitsteps_xor (n : Nat) (c d : Word16) :
    crcBitsteps n (c ^^^ d) = crcBitsteps n c ^^^ crcBitsteps n d := by
  induction n generalizing c d with
  | zero => rfl
  | succ n ih => simp only [crcBitsteps, crcBitstep_xor, ih]

/-- `crc_byte` is linear in register and byte together (R55's ground). -/
theorem crcByte_xor (c d : Word16) (b e : Byte) : crcByte (c ^^^ d) (b ^^^ e) = crcByte c b ^^^ crcByte d e := by
  unfold crcByte
  rw [← crcBitsteps_xor, BitVec.setWidth_xor]
  congr 1
  ac_rfl

theorem crcBitsteps_eq_zero {n : Nat} {c : Word16} (h : crcBitsteps n c = 0) : c = 0 := by
  induction n generalizing c with
  | zero => exact h
  | succ n ih => exact crcBitstep_eq_zero (ih h)

/-! ### Little-endian fields -/

/-- The payload region `raw[1 : n-3]`, as a drop and a take. -/
theorem slice_payload_region (raw : Bytes) : slice raw 1 (raw.length - 3) = (raw.drop 1).take (raw.length - 4) := by
  unfold slice
  rw [List.drop_take]
  congr 1

/-- The value of a little-endian 16-bit field is its high byte before its low byte. -/
theorem low_or_high_eq_append (lo hi : Byte) : lo.setWidth 16 ||| (hi.setWidth 16 <<< 8) = hi ++ lo := by
  apply BitVec.eq_of_toNat_eq
  have := lo.isLt
  have := hi.isLt
  have e : (hi ++ lo).toNat = hi.toNat <<< 8 ||| lo.toNat := BitVec.toNat_append ..
  rw [e]
  simp [Nat.shiftLeft_eq]
  rw [Nat.mod_eq_of_lt (a := lo.toNat) (by omega), Nat.mod_eq_of_lt (by omega), Nat.or_comm]

/-- A 16-bit value is its two bytes, high before low. -/
theorem append_high_low (v : Word16) : v.extractLsb' 8 8 ++ v.extractLsb' 0 8 = v := by
  apply BitVec.eq_of_getLsbD_eq
  intro i hi
  rw [BitVec.getLsbD_append]
  by_cases h : i < 8 <;> simp [h]
  rw [show 8 + (i - 8) = i by omega]
  simp
  intro
  omega

theorem low_of_append (hi lo : Byte) : BitVec.extractLsb' 0 8 (hi ++ lo : BitVec 16) = lo := by
  apply BitVec.eq_of_getLsbD_eq
  intro i h
  rw [BitVec.getLsbD_extractLsb', BitVec.getLsbD_append (x := hi) (y := lo) (i := 0 + i)]
  simp [h]

theorem high_of_append (hi lo : Byte) : BitVec.extractLsb' 8 8 (hi ++ lo : BitVec 16) = hi := by
  apply BitVec.eq_of_getLsbD_eq
  intro i h
  rw [BitVec.getLsbD_extractLsb', BitVec.getLsbD_append (x := hi) (y := lo) (i := 8 + i)]
  simp [h]

@[simp] theorem u16le_length (v : Word16) : (u16le v).length = 2 := rfl

theorem slice_length (l : Bytes) (a b : Nat) (h : b ≤ l.length) : (slice l a b).length = b - a := by
  simp [slice, h]

theorem rdU16LE_eq_ok {l : Bytes} {off : Nat} {v : Word16} : rdU16LE l off = .ok v ↔
    ∃ b0 b1 rest, l.drop off = b0 :: b1 :: rest ∧ v = b0.setWidth 16 ||| (b1.setWidth 16 <<< 8) := by
  unfold rdU16LE
  constructor
  · intro h
    split at h
    · rename_i b0 b1 rest heq
      exact ⟨b0, b1, rest, heq, by simpa [eq_comm] using h⟩
    · simp at h
  · rintro ⟨b0, b1, rest, heq, rfl⟩
    rw [heq]

/-- A 16-bit read inside its list succeeds. -/
theorem rdU16LE_ok (l : Bytes) (off : Nat) (h : off + 2 ≤ l.length) : ∃ v, rdU16LE l off = .ok v := by
  have hl : 2 ≤ (l.drop off).length := by rw [List.length_drop]; omega
  unfold rdU16LE
  generalize l.drop off = m at hl
  rcases m with _ | ⟨b0, _ | ⟨b1, rest⟩⟩ <;> first | exact ⟨_, rfl⟩ | simp at hl

/-- A 32-bit read inside its list succeeds. -/
theorem readU32LE_ok (l : Bytes) (off : Nat) (h : off + 4 ≤ l.length) : ∃ v, readU32LE l off = .ok v := by
  have hl : 4 ≤ (l.drop off).length := by rw [List.length_drop]; omega
  unfold readU32LE
  generalize l.drop off = m at hl
  rcases m with _ | ⟨b0, _ | ⟨b1, _ | ⟨b2, _ | ⟨b3, rest⟩⟩⟩⟩ <;> first | exact ⟨_, rfl⟩ | simp at hl

/-! ### Frames -/

theorem frameOf_length (p : Bytes) : (frameOf p).length = p.length + 4 := by
  simp [frameOf]

/-- Past the length and start checks, the CRC decides. -/
theorem unframeChecks_of_start {b : Byte} {rest : Bytes} {minlen : Nat} {rx : Word16}
    (hl : ¬(b :: rest).length < minlen) (hb : b = START)
    (hrx : rdU16LE (b :: rest) ((b :: rest).length - 3) = .ok rx) :
    unframeChecks (b :: rest) minlen =
      if crc16 (slice (b :: rest) 1 ((b :: rest).length - 3)) ≠ rx then .ok (.err .checksumMismatch)
      else .ok (.ok (slice (b :: rest) 1 ((b :: rest).length - 3))) := by
  unfold unframeChecks
  rw [if_neg hl]
  simp only [hb, ne_eq, not_true_eq_false, if_false]
  rw [← hb, hrx]
  rfl

/-- Everything the unframe checks can answer at an admitted minimum length: an error, or a payload of `n - 4` bytes. -/
theorem unframeChecks_cases (raw : Bytes) (minlen : Nat) (hmin : 4 ≤ minlen) :
    (raw.length < minlen ∧ unframeChecks raw minlen = .ok (.err .frameTooShort)) ∨
    (minlen ≤ raw.length ∧ raw.head? ≠ some START ∧ unframeChecks raw minlen = .ok (.err .badStartByte)) ∨
    (minlen ≤ raw.length ∧ raw.head? = some START ∧ ∃ rx, rdU16LE raw (raw.length - 3) = .ok rx ∧
      ((crc16 (slice raw 1 (raw.length - 3)) ≠ rx ∧ unframeChecks raw minlen = .ok (.err .checksumMismatch)) ∨
       (crc16 (slice raw 1 (raw.length - 3)) = rx ∧
         unframeChecks raw minlen = .ok (.ok (slice raw 1 (raw.length - 3)))))) := by
  by_cases hl : raw.length < minlen
  · exact .inl ⟨hl, by simp [unframeChecks, hl]⟩
  · have hge : minlen ≤ raw.length := Nat.le_of_not_lt hl
    cases raw with
    | nil => simp at hge; omega
    | cons b rest =>
      by_cases hb : b = START
      · obtain ⟨rx, hrx⟩ := rdU16LE_ok (b :: rest) ((b :: rest).length - 3) (by omega)
        refine .inr (.inr ⟨hge, by simp [hb], rx, hrx, ?_⟩)
        by_cases hc : crc16 (slice (b :: rest) 1 ((b :: rest).length - 3)) = rx
        · refine .inr ⟨hc, ?_⟩
          rw [unframeChecks_of_start hl hb hrx, if_neg (not_not.2 hc)]
        · refine .inl ⟨hc, ?_⟩
          rw [unframeChecks_of_start hl hb hrx, if_pos hc]
      · refine .inr (.inl ⟨hge, by simpa using hb, ?_⟩)
        unfold unframeChecks
        rw [if_neg hl]
        simp [hb]

/-- At an admitted minimum length the checks always answer, and an `Ok` payload is four bytes shorter than the buffer. -/
theorem unframeChecks_answers (raw : Bytes) (minlen : Nat) (hmin : 4 ≤ minlen) : ∃ r, unframeChecks raw minlen = .ok r := by
  rcases unframeChecks_cases raw minlen hmin with h | h | ⟨_, _, _, _, h | h⟩
  · exact ⟨_, h.2⟩
  · exact ⟨_, h.2.2⟩
  · exact ⟨_, h.2⟩
  · exact ⟨_, h.2⟩

theorem unframeChecks_ok_length {raw p : Bytes} {minlen : Nat} (hmin : 4 ≤ minlen)
    (h : unframeChecks raw minlen = .ok (.ok p)) : minlen ≤ raw.length ∧ p.length + 4 = raw.length := by
  rcases unframeChecks_cases raw minlen hmin with ⟨_, h'⟩ | ⟨_, _, h'⟩ | ⟨hge, _, _, _, ⟨_, h'⟩ | ⟨_, h'⟩⟩ <;>
    rw [h'] at h <;> simp at h
  subst h
  refine ⟨hge, ?_⟩
  rw [slice_length _ _ _ (by omega)]
  omega

/-- Everything PROJECT's function can answer: refused on a short payload, else the two fields and their rotations. -/
theorem projectFields_eq_ok {p : Bytes} {oT oR : Word32} {t : TelemetryFields} : projectFields p oT oR = .ok t ↔
    14 ≤ p.length ∧ ∃ rawT rawR, readU32LE p 6 = .ok rawT ∧ readU32LE p 10 = .ok rawR ∧
      t = { payload := p, rawT := rawT, rawR := rawR, rotT := angleRotation rawT oT, rotR := angleRotation rawR oR } := by
  simp only [projectFields, checked_bind_eq_ok, require_eq_ok, TLM_PAYLOAD_MIN, T_OFF, R_OFF, pure, Except.pure,
    Except.ok.injEq, decide_eq_true_iff]
  constructor
  · rintro ⟨-, h, rawT, hT, rawR, hR, rfl⟩
    exact ⟨h, rawT, rawR, hT, hR, rfl⟩
  · rintro ⟨h, rawT, rawR, hT, hR, rfl⟩
    exact ⟨(), h, rawT, hT, rawR, hR, rfl⟩

theorem projectFields_ok (p : Bytes) (oT oR : Word32) (h : 14 ≤ p.length) : ∃ t, projectFields p oT oR = .ok t := by
  obtain ⟨rawT, hT⟩ := readU32LE_ok p 6 (by omega)
  obtain ⟨rawR, hR⟩ := readU32LE_ok p 10 (by omega)
  exact ⟨_, projectFields_eq_ok.2 ⟨h, rawT, rawR, hT, hR, rfl⟩⟩

theorem decodeTelemetry_eq_ok {raw : Bytes} {minlen : Nat} {oT oR : Word32} {r : CodecResult TelemetryFields} :
    decodeTelemetry raw minlen oT oR = .ok r ↔
      (∃ e, unframeChecks raw minlen = .ok (.err e) ∧ r = .err e) ∨
      (∃ p t, unframeChecks raw minlen = .ok (.ok p) ∧ projectFields p oT oR = .ok t ∧ r = .ok t) := by
  simp only [decodeTelemetry, checked_bind_eq_ok]
  constructor
  · rintro ⟨c, hc, h⟩
    cases c with
    | err e => exact .inl ⟨e, hc, by simpa [pure, Except.pure, eq_comm] using h⟩
    | ok p =>
      obtain ⟨t, ht, h'⟩ := checked_bind_eq_ok.1 h
      exact .inr ⟨p, t, hc, ht, by simpa [pure, Except.pure, eq_comm] using h'⟩
  · rintro (⟨e, hc, rfl⟩ | ⟨p, t, hc, ht, rfl⟩)
    · exact ⟨_, hc, rfl⟩
    · exact ⟨_, hc, checked_bind_eq_ok.2 ⟨t, ht, rfl⟩⟩

/-! ### Rotations -/

theorem rotation_bounds (raw o : Word32) : -(2 ^ 32 - 1) ≤ angleRotation raw o ∧ angleRotation raw o ≤ 2 ^ 32 - 1 := by
  have h1 := raw.isLt
  have h2 := o.isLt
  unfold angleRotation
  omega

/-! ### Host variables -/

theorem lookupVar_bindVar_self (vars : Vars) (k : VarKey) (v : Value) : lookupVar (bindVar vars k v) k = some v := by
  simp [bindVar, lookupVar]

theorem lookupVar_filter_ne (vars : Vars) {k k' : VarKey} (h : k' ≠ k) :
    lookupVar (vars.filter fun p => decide (p.1 ≠ k)) k' = lookupVar vars k' := by
  induction vars with
  | nil => rfl
  | cons p rest ih =>
    obtain ⟨q, v⟩ := p
    by_cases hq : q = k
    · subst hq
      simp only [List.filter, ne_eq, not_true_eq_false, decide_false, lookupVar, if_neg (Ne.symm h)]
      simpa using ih
    · simp only [List.filter, ne_eq, hq, not_false_eq_true, decide_true, lookupVar]
      split
      · rfl
      · simpa using ih

theorem lookupVar_bindVar_ne (vars : Vars) {k k' : VarKey} (v : Value) (h : k' ≠ k) :
    lookupVar (bindVar vars k v) k' = lookupVar vars k' := by
  simp only [bindVar, lookupVar, if_neg (Ne.symm h)]
  exact lookupVar_filter_ne vars h

/-- Binding keeps each variable bound once. -/
theorem bindVar_nodup {vars : Vars} (k : VarKey) (v : Value) (h : (vars.map Prod.fst).Nodup) :
    ((bindVar vars k v).map Prod.fst).Nodup := by
  simp only [bindVar, List.map_cons, List.nodup_cons]
  refine ⟨?_, h.sublist (List.filter_sublist.map _)⟩
  simp

/-! Binding a result: one lemma for each form a line can have. -/

@[simp] theorem bindVar?_some (vars : Vars) (k : VarKey) (v : Value) : bindVar? vars k (some v) = bindVar vars k v := rfl
@[simp] theorem bindVar?_none (vars : Vars) (k : VarKey) : bindVar? vars k none = vars := rfl

@[simp] theorem bindResult_nothing (vars : Vars) (h : HostId) (r : Result) : bindResult vars h .nothing r = vars := rfl

theorem bindResult_value {vars : Vars} {h : HostId} {x : VarName} {r : Result} {v : Value} (hv : r.boundValue = some v) :
    bindResult vars h (.value x) r = bindVar vars (h, x) v := by
  simp [bindResult, hv]

theorem bindResult_value_none {vars : Vars} {h : HostId} {x : VarName} {r : Result} (hv : r.boundValue = none) :
    bindResult vars h (.value x) r = vars := by
  simp [bindResult, hv]

theorem bindResult_status {vars : Vars} {h : HostId} {st x : VarName} {r : Result} {c : BitVec 8} {v : Option Value}
    (hv : r.statusAndValue = some (c, v)) :
    bindResult vars h (.status st x) r = bindVar? (bindVar vars (h, st) (byteValue c)) (h, x) v := by
  simp [bindResult, hv]

theorem bindResult_status_none {vars : Vars} {h : HostId} {st x : VarName} {r : Result} (hv : r.statusAndValue = none) :
    bindResult vars h (.status st x) r = vars := by
  simp [bindResult, hv]

theorem bindVar?_nodup {vars : Vars} (k : VarKey) (v : Option Value) (h : (vars.map Prod.fst).Nodup) :
    ((bindVar? vars k v).map Prod.fst).Nodup := by
  cases v with
  | none => exact h
  | some v => exact bindVar_nodup k v h

/-- Binding a result keeps each variable bound once. -/
theorem bindResult_nodup {vars : Vars} (h : HostId) (b : Bind) (r : Result) (hn : (vars.map Prod.fst).Nodup) :
    ((bindResult vars h b r).map Prod.fst).Nodup := by
  cases b with
  | nothing => exact hn
  | value x => exact bindVar?_nodup _ _ hn
  | status st x =>
    simp only [bindResult]
    split
    · exact hn
    · exact bindVar?_nodup _ _ (bindVar_nodup _ _ hn)

/-- Literal operands are their own values. -/
theorem evalOperands_lit (vars : Vars) (h : HostId) (vs : List Value) : evalOperands vars h (vs.map Expr.lit) = some vs := by
  induction vs with
  | nil => rfl
  | cons v vs ih => simp [evalOperands, evalExpr, ih]

end Sys2Proof.Machine
end

