-- ==== Sys2Proof/Laws/Exec.lean ====
section
/-! SUPPORT. One inversion lemma per meaning, and one for a step: if it answers a next state, then what was checked and what
that state is. -/

namespace Sys2Proof.Machine

theorem execCrc16_next {data : Bytes} {s t : State} (h : execCrc16 data s = .next t) :
    admittedConfig s.cfg = true ∧ data.length ≤ s.cfg.maxFrameLen ∧ t = s.handResult (.u16 (crc16 data)) := by
  simp only [execCrc16, finish_eq_next, checked_bind_eq_ok] at h
  obtain ⟨_, h1, _, h2, h3⟩ := h
  exact ⟨checkConfig_eq_ok.1 h1, checkLength_eq_ok.1 h2, by simpa [pure, Except.pure, eq_comm] using h3⟩

theorem execCrcInit_next {s t : State} (h : execCrcInit s = .next t) :
    admittedConfig s.cfg = true ∧ s.issuer = s.owner ∧ t = (s.writeAcc INIT).handResult .nothing := by
  simp only [execCrcInit, finish_eq_next, checked_bind_eq_ok] at h
  obtain ⟨_, h1, _, h2, h3⟩ := h
  exact ⟨checkConfig_eq_ok.1 h1, checkOwner_eq_ok.1 h2, by simpa [pure, Except.pure, eq_comm] using h3⟩

theorem execCrcUpdate_next {b : Byte} {s t : State} (h : execCrcUpdate b s = .next t) :
    admittedConfig s.cfg = true ∧ s.issuer = s.owner ∧ t = (s.writeAcc (crcByte s.acc b)).handResult .nothing := by
  simp only [execCrcUpdate, finish_eq_next, checked_bind_eq_ok] at h
  obtain ⟨_, h1, _, h2, h3⟩ := h
  exact ⟨checkConfig_eq_ok.1 h1, checkOwner_eq_ok.1 h2, by simpa [pure, Except.pure, eq_comm] using h3⟩

theorem execCrcRead_next {s t : State} (h : execCrcRead s = .next t) :
    admittedConfig s.cfg = true ∧ s.issuer = s.owner ∧ t = s.handResult (.u16 s.acc) := by
  simp only [execCrcRead, finish_eq_next, checked_bind_eq_ok] at h
  obtain ⟨_, h1, _, h2, h3⟩ := h
  exact ⟨checkConfig_eq_ok.1 h1, checkOwner_eq_ok.1 h2, by simpa [pure, Except.pure, eq_comm] using h3⟩

theorem execEncode_next {p : Bytes} {s t : State} (h : execEncode p s = .next t) :
    admittedConfig s.cfg = true ∧ p.length ≤ maxPayloadLen s.cfg ∧ t = s.handResult (.frame (frameOf p)) := by
  simp only [execEncode, finish_eq_next, checked_bind_eq_ok] at h
  obtain ⟨_, h1, _, h2, h3⟩ := h
  exact ⟨checkConfig_eq_ok.1 h1, checkLength_eq_ok.1 h2, by simpa [pure, Except.pure, eq_comm] using h3⟩

theorem execUnframe_next {raw : Bytes} {s t : State} (h : execUnframe raw s = .next t) :
    admittedConfig s.cfg = true ∧ raw.length ≤ s.cfg.maxFrameLen ∧
      ∃ r, unframeChecks raw s.cfg.frameMinLen = .ok r ∧ t = s.handResult (.unframed r) := by
  simp only [execUnframe, finish_eq_next, checked_bind_eq_ok] at h
  obtain ⟨_, h1, _, h2, r, hr, h3⟩ := h
  exact ⟨checkConfig_eq_ok.1 h1, checkLength_eq_ok.1 h2, r, hr, by simpa [pure, Except.pure, eq_comm] using h3⟩

theorem execProject_next {p : Bytes} {oT oR : Word32} {s t : State} (h : execProject p oT oR s = .next t) :
    admittedConfig s.cfg = true ∧ p.length ≤ maxPayloadLen s.cfg ∧
      ∃ f, projectFields p oT oR = .ok f ∧ t = s.handResult (.fields f) := by
  simp only [execProject, finish_eq_next, checked_bind_eq_ok] at h
  obtain ⟨_, h1, _, h2, r, hr, h3⟩ := h
  exact ⟨checkConfig_eq_ok.1 h1, checkLength_eq_ok.1 h2, r, hr, by simpa [pure, Except.pure, eq_comm] using h3⟩

theorem execDecode_next {raw : Bytes} {oT oR : Word32} {s t : State} (h : execDecode raw oT oR s = .next t) :
    admittedConfig s.cfg = true ∧ raw.length ≤ s.cfg.maxFrameLen ∧
      ∃ r, decodeTelemetry raw s.cfg.tlmMinLen oT oR = .ok r ∧ t = s.handResult (.decoded r) := by
  simp only [execDecode, finish_eq_next, checked_bind_eq_ok] at h
  obtain ⟨_, h1, _, h2, r, hr, h3⟩ := h
  exact ⟨checkConfig_eq_ok.1 h1, checkLength_eq_ok.1 h2, r, hr, by simpa [pure, Except.pure, eq_comm] using h3⟩

/-- Everything an issued operation's act can do when it answers a next state. -/
theorem runAct_issue_next {h : HostId} {sel : BitVec 8} {es : List Expr} {b : Bind} {s t : State}
    (hr : runAct (.issue h sel es b) s = .next t) :
    ∃ vs i u, evalOperands s.vars h es = some vs ∧ decode ⟨sel, vs⟩ = .ok i ∧
      exec i { s with issuer := h } = .next u ∧ t = { u with vars := bindResult u.vars h b u.result } := by
  simp only [runAct] at hr
  split at hr
  · simp at hr
  · rename_i vs hvs
    simp only [runRequest] at hr
    split at hr
    · simp [bindOutcome] at hr
    · rename_i i hi
      cases hu : exec i { s with issuer := h } with
      | next u =>
        exact ⟨vs, i, u, hvs, hi, hu, by simpa [hu, bindOutcome, eq_comm] using hr⟩
      | fault f => simp [hu, bindOutcome] at hr
      | refused r => simp [hu, bindOutcome] at hr

/-- Everything a step can do when it answers a next state: nothing on an empty agenda, else the act at its head. -/
theorem step_next {s t : State} (h : step s = .next t) :
    (s.agenda = [] ∧ t = s) ∨ (∃ a rest, s.agenda = a :: rest ∧ runAct a { s with agenda := rest } = .next t) := by
  simp only [step, nextAct] at h
  split at h
  · rename_i ha
    exact .inl ⟨ha, by simpa [eq_comm] using h⟩
  · rename_i a rest ha
    exact .inr ⟨a, rest, ha, h⟩

theorem execAll_cons_next {i : Instr} {is : List Instr} {s t : State} (h : execAll (i :: is) s = .next t) :
    ∃ u, exec i s = .next u ∧ execAll is u = .next t := by
  simp only [execAll] at h
  cases hu : exec i s with
  | next u => rw [hu] at h; exact ⟨u, rfl, h⟩
  | fault f => nomatch f
  | refused r => rw [hu] at h; simp at h

theorem runSteps_succ_next {k : Nat} {s t : State} (h : runSteps (k + 1) s = .next t) :
    ∃ u, step s = .next u ∧ runSteps k u = .next t := by
  simp only [runSteps] at h
  cases hu : step s with
  | next u => rw [hu] at h; exact ⟨u, rfl, h⟩
  | fault f => nomatch f
  | refused r => rw [hu] at h; simp at h

/-- The induction over a run, once: what every step keeps, every run keeps. -/
theorem runSteps_keeps {P : State → Prop} (hstep : ∀ s t, P s → step s = .next t → P t) {k : Nat} {s t : State}
    (hs : P s) (h : runSteps k s = .next t) : P t := by
  induction k generalizing s with
  | zero => cases h; exact hs
  | succ k ih =>
    obtain ⟨u, hu, h⟩ := runSteps_succ_next h
    exact ih (hstep s u hs hu) h

end Sys2Proof.Machine
end

