-- ==== Sys2Proof/Laws/PerInstr.lean ====
section
/-! SUPPORT. Statements made per instruction: one lemma per constructor of Instr. -/

namespace Sys2Proof.Laws.SelectorListed

/-- The encoder gives an instruction a selector of R39's table that the decoder reads as that operation. -/
def Statement (i : Instr) : Prop := decodeSelector (encode i).selector = some i.opName

theorem crc16 (data : Bytes) : Statement (.crc16 data) := rfl
theorem crcInit : Statement .crcInit := rfl
theorem crcUpdate (b : Byte) : Statement (.crcUpdate b) := rfl
theorem crcRead : Statement .crcRead := rfl
theorem encodeFrame (payload : Bytes) : Statement (.encodeFrame payload) := rfl
theorem unframe (raw : Bytes) : Statement (.unframe raw) := rfl
theorem project (payload : Bytes) (originT originR : Word32) : Statement (.project payload originT originR) := rfl
theorem decodeFrame (raw : Bytes) (originT originR : Word32) : Statement (.decodeFrame raw originT originR) := rfl

end Sys2Proof.Laws.SelectorListed
end

