-- ==== Sys2Proof/Tests/Slice0.lean ====
section
/-! SUPPORT. The model's own tests. Expected values are those of spec/95_test_vectors.md (its ids in the comments) or of the
rule a comment names. The theorems named witness_… show that the hypotheses of a statement are met, one conjunct for each of its
clauses that has hypotheses, at a boundary value where the clause has a range. -/

namespace Sys2Proof.Tests

open Sys2Proof.Machine

/-! ### Helpers -/

/-- A small machine: host 0 owns ACC and issues; MAX_FRAME_LEN is 32. -/
def small (tlm : Nat) (acc : Word16) : State := (State.resetWith { tlmMinLen := tlm, maxFrameLen := 32 }).writeAcc acc

/-- The next state of an outcome, if it is one. -/
def nextOf (o : Host.Outcome State Fault Refusal) : Option State :=
  match o with
  | .next t => some t
  | .fault _ => none
  | .refused _ => none

/-- ACC and the result of a next state. -/
def accAndResult (o : Host.Outcome State Fault Refusal) : Option (Word16 × Result) := (nextOf o).map fun t => (t.acc, t.result)

/-- The reason of a refusal. -/
def refusalOf (o : Host.Outcome State Fault Refusal) : Option Refusal :=
  match o with
  | .next _ => none
  | .fault _ => none
  | .refused r => some r

theorem eq_next_of_nextOf {o : Host.Outcome State Fault Refusal} {t : State} (h : nextOf o = some t) : o = .next t := by
  cases o <;> simp_all [nextOf]

theorem eq_refused_of_refusalOf {o : Host.Outcome State Fault Refusal} {r : Refusal} (h : refusalOf o = some r) :
    o = .refused r := by
  cases o <;> simp_all [refusalOf]

/-- V-P2's payload (15 bytes): T = 12345, R = 9000. -/
def payloadP2 : Bytes := [0x00, 0x00, 0x00, 0x00, 0x00, 0x00, 0x39, 0x30, 0x00, 0x00, 0x28, 0x23, 0x00, 0x00, 0x00]

/-- V-D2's frame (19 bytes). -/
def frameD2 : Bytes :=
  [0x55, 0x00, 0x00, 0x00, 0x00, 0x00, 0x00, 0x39, 0x30, 0x00, 0x00, 0x28, 0x23, 0x00, 0x00, 0x00, 0x16, 0x78, 0xAA]

/-- V-D5's frame (18 bytes). -/
def frameD5 : Bytes :=
  [0x55, 0x00, 0x00, 0x00, 0x00, 0x00, 0x00, 0x39, 0x30, 0x00, 0x00, 0x28, 0x23, 0x00, 0x00, 0xA0, 0x16, 0xAA]

/-! ### WellFormed: each check refuses an ill-formed term, and admits the bound itself -/

theorem test_wf_crc16_too_long : (Instr.crc16 (List.replicate 33 0)).wf (small 18 0).cfg = false := by decide
theorem test_wf_crc16_bound : (Instr.crc16 (List.replicate 32 0)).wf (small 18 0).cfg = true := by decide
theorem test_wf_encode_too_long : (Instr.encodeFrame (List.replicate 29 0)).wf (small 18 0).cfg = false := by decide
theorem test_wf_unframe_too_long : (Instr.unframe (List.replicate 33 0)).wf (small 18 0).cfg = false := by decide
theorem test_wf_project_too_short : (Instr.project (List.replicate 13 0) 0 0).wf (small 18 0).cfg = false := by decide
theorem test_wf_project_too_long : (Instr.project (List.replicate 29 0) 0 0).wf (small 18 0).cfg = false := by decide
theorem test_wf_decode_too_long : (Instr.decodeFrame (List.replicate 33 0) 0 0).wf (small 18 0).cfg = false := by decide
/-- R16, section 2.9: each parameter outside its range is refused. -/
theorem test_config_ranges : (admittedConfig ⟨3, 18, 32⟩, admittedConfig ⟨4, 17, 32⟩, admittedConfig ⟨4, 20, 32⟩,
    admittedConfig ⟨4, 19, 18⟩, admittedConfig ⟨4, 19, 19⟩) = (false, false, false, false, true) := by decide

/-! ### Decoding: each selector as spec/30_encoding.md R39 writes it, bit by bit -/

theorem test_decode_crc16 : decode ⟨0b00000001, [.bytes [0x34, 0x35]]⟩ = .ok (.crc16 [0x34, 0x35]) := by decide
theorem test_decode_crcInit : decode ⟨0b00000010, []⟩ = .ok .crcInit := by decide
theorem test_decode_crcUpdate : decode ⟨0b00000011, [.int 255]⟩ = .ok (.crcUpdate 0xFF) := by decide
theorem test_decode_crcRead : decode ⟨0b00000100, []⟩ = .ok .crcRead := by decide
theorem test_decode_encode : decode ⟨0b00010000, [.bytes [0xAA]]⟩ = .ok (.encodeFrame [0xAA]) := by decide
theorem test_decode_unframe : decode ⟨0b00010001, [.bytes [0, 0]]⟩ = .ok (.unframe [0x00, 0x00]) := by decide
theorem test_decode_project : decode ⟨0b00010010, [.bytes [7], .int 4294967295, .int 1]⟩ =
    .ok (.project [0x07] 0xFFFFFFFF 0x00000001) := by decide
theorem test_decode_decode : decode ⟨0b00010011, [.bytes [7], .int 2345, .int 0]⟩ = .ok (.decodeFrame [0x07] 2345 0) := by
  decide
/-- Section 2.9: reserved selectors, a byte and an origin out of range, operands of another form. -/
theorem test_decode_rejects : ([0x00, 0x05, 0x0F, 0x14, 0xFF].map fun sel => decode ⟨sel, []⟩) =
      List.replicate 5 (.error .reservedSelector) ∧
    decode ⟨0x03, [.int 0x100]⟩ = .error .byteOutOfRange ∧
    decode ⟨0x03, [.int (-1)]⟩ = .error .byteOutOfRange ∧
    decode ⟨0x13, [.bytes [], .int 0x100000000, .int 0]⟩ = .error .originOutOfRange ∧
    decode ⟨0x02, [.int 0]⟩ = .error .malformedOperand ∧
    decode ⟨0x01, [.int 0]⟩ = .error .malformedOperand := by decide

/-! ### CRC engine (sections 2.1 to 2.4) -/

theorem test_crcBitstep : [0x0000, 0x0001, 0x0002, 0x0003, 0x8000, 0xFFFF, 0xA001, 0x4B37].map crcBitstep =
    [0x0000, 0xA001, 0x0001, 0xA000, 0x4000, 0xDFFE, 0xF001, 0x859A] := by decide
theorem test_crcByte : [crcByte 0xFFFF 0x31, crcByte 0x0000 0x01, crcByte 0x1234 0x56] = [0x947E, 0xC0C1, 0xE993] := by
  decide
theorem test_crc16_check_value : crc16 [0x31, 0x32, 0x33, 0x34, 0x35, 0x36, 0x37, 0x38, 0x39] = 0x4B37 := by decide +kernel
theorem test_crc16_small : [crc16 [], crc16 [0x00], crc16 [0xFF, 0xFF], crc16 [0x55, 0xAA]] =
    [0xFFFF, 0x40BF, 0x0000, 0x9FBE] := by decide +kernel
theorem test_crc16_leaves_acc : accAndResult (exec (.crc16 [0x34, 0x35]) (small 18 0x30BA)) = some (0x30BA, .u16 0x67D7) := by
  decide +kernel
theorem test_crcInit : accAndResult (exec .crcInit (small 18 0x1234)) = some (0xFFFF, .nothing) := by decide
theorem test_crcUpdate : accAndResult (exec (.crcUpdate 0x00) (small 18 0x40BF)) = some (0xB001, .nothing) := by
  decide
theorem test_crcUpdate_continues : accAndResult (exec (.crcUpdate 0x34) (small 18 0x7A75)) = some (0x30BA, .nothing) := by
  decide
theorem test_crcRead : accAndResult (exec .crcRead (small 18 0xE181)) = some (0xE181, .u16 0xE181) := by decide
theorem test_crcRead_other_host : refusalOf (exec .crcRead { small 18 0 with issuer := 1 }) = some .concurrentAccUse := by
  decide

/-! ### Codec (sections 2.5 to 2.9) -/

theorem test_encode_empty : accAndResult (exec (.encodeFrame []) (small 18 0x1234)) =
    some (0x1234, .frame [0x55, 0xFF, 0xFF, 0xAA]) := by decide
theorem test_encode_S6 : accAndResult (exec (.encodeFrame (List.replicate 13 0)) (small 18 0)) =
    some (0, .frame ([0x55] ++ List.replicate 13 0 ++ [0x03, 0xEB, 0xAA])) := by decide +kernel
/-- V-U2, V-U3, V-U4, V-U5, V-U6, V-U7, V-U8, V-U9, V-U10. -/
theorem test_unframe_table : ([[0x55, 0xFF, 0xFF], [0x00, 0x00], [0x55, 0xFF, 0xFF, 0xAA], [0x54, 0xFF, 0xFF, 0xAA],
      [0x00, 0xFF, 0xFE, 0xAA], [0x55, 0xFF, 0xFE, 0xAA], [0x55, 0xFE, 0xFF, 0xAA], [0x55, 0xFF, 0xFF, 0x00],
      [0x55, 0xFF, 0xFF, 0xAA, 0x00]].map fun raw => accAndResult (exec (.unframe raw) (small 18 0))) =
    ([.err .frameTooShort, .err .frameTooShort, .ok [], .err .badStartByte, .err .badStartByte, .err .checksumMismatch,
      .err .checksumMismatch, .ok [], .err .checksumMismatch].map fun r => some (0, .unframed r)) := by decide
/-- V-U13: the V-U11 frame without its last byte. -/
theorem test_unframe_truncated : accAndResult (exec (.unframe ([0x55] ++ List.replicate 13 0 ++ [0x03, 0xEB])) (small 18 0)) =
    some (0, .unframed (.err .checksumMismatch)) := by decide +kernel
/-- V-P2. -/
theorem test_project_P2 : accAndResult (exec (.project payloadP2 2345 0) (small 18 0)) =
    some (0, .fields ⟨payloadP2, 12345, 9000, 10000, 9000⟩) := by decide
/-- V-P4: the extreme rotations. -/
theorem test_project_P4 : (projectFields (List.replicate 10 0 ++ [0xFF, 0xFF, 0xFF, 0xFF, 0x00]) 4294967295 0).map
    (fun t => (t.rawT, t.rawR, t.rotT, t.rotR)) = .ok (0, 4294967295, -4294967295, 4294967295) := by decide
/-- V-D2 with V-D10: the end byte is not checked. -/
theorem test_decode_D2_D10 : ([frameD2, frameD2.set 18 0x00].map fun raw =>
      accAndResult (exec (.decodeFrame raw 0 0) (small 19 0))) =
    List.replicate 2 (some (0, .decoded (.ok ⟨payloadP2, 12345, 9000, 12345, 9000⟩))) := by decide +kernel
/-- V-D4, V-D8, V-D9 with TLM_MIN_LEN 19; V-D5 and V-D6: the same frame under 18 and under 19. -/
theorem test_decode_errors : ([frameD2.take 18, frameD2.set 0 0xAA, frameD2.set 16 0xE9, frameD5].map fun raw =>
      accAndResult (exec (.decodeFrame raw 0 0) (small 19 0))) =
      ([.frameTooShort, .badStartByte, .checksumMismatch, .frameTooShort].map fun e => some (0, .decoded (.err e))) ∧
    accAndResult (exec (.decodeFrame frameD5 0 0) (small 18 0)) =
      some (0, .decoded (.ok ⟨payloadP2.take 14, 12345, 9000, 12345, 9000⟩)) := by decide +kernel
/-- Section 2.9, V-P6. -/
theorem test_refusals : refusalOf (exec (.project (List.replicate 13 0) 0 0) (small 18 0)) = some .payloadTooShortForTelemetry ∧
    refusalOf (exec (.unframe (List.replicate 33 0)) (small 18 0)) = some .operandTooLong ∧
    refusalOf (exec .crcInit (small 17 0)) = some .badConfiguration := by decide
/-- R65: 100.00 and 123.45 degrees, and the 33-bit field of a negative rotation. -/
theorem test_degrees : degrees 10000 = 100 ∧ degrees 12345 = 12345 / 100 ∧ rotationBits (-1) = 0x1FFFFFFFF := by
  decide +kernel

/-! ### Steps: one line each of programs P1 and P2, and the events from outside -/

/-- P1 line 4 with the host variable numbered 1. -/
theorem test_step_crcRead_binds :
    (nextOf (step { small 18 0x7A75 with agenda := [.issue 0 0x04 [] (.value 1)] })).map (fun t => (t.vars, t.agenda)) =
      some ([((0, 1), .int 0x7A75)], []) := by decide
/-- P2 line 4: f2 (variable 2) has a flipped bit; the status is bound and p2 stays unbound. -/
theorem test_step_unframe_binds_status :
    (nextOf (step { small 18 0 with
      vars := [((0, 2), .bytes [0x55, 0x01, 0xFF, 0xFF, 0xAA])],
      agenda := [.issue 0 0x11 [.var 2] (.status 3 4)] })).map (fun t => (lookupVar t.vars (0, 3), lookupVar t.vars (0, 4))) =
      some (some (.int 3), none) := by decide
/-- R43: `-> v` binds the result, for UNFRAME the Err (R40; P2 line 4's frame). -/
theorem test_step_unframe_binds_result :
    (nextOf (step { small 18 0 with
      agenda := [.issue 0 0x11 [.lit (.bytes [0x55, 0x01, 0xFF, 0xFF, 0xAA])] (.value 4)] })).map (fun t => t.vars) =
      some [((0, 4), .unframed (.err .checksumMismatch))] := by decide
/-- R50: CRC.INIT returns nothing; the line `-> v` still has its effect, and binds nothing (log entry 6). -/
theorem test_step_crcInit_value_line :
    (nextOf (step { small 18 0x1234 with agenda := [.issue 0 0x02 [] (.value 4)] })) = some (small 18 0xFFFF) := by decide
/-- P2 line 3: `HOST f2 <- f with f2[6] = f[6] ^ 0x01`, here at index 1. -/
theorem test_step_host_line :
    (nextOf (step { small 18 0 with
      vars := [((0, 1), .bytes [0x55, 0x00, 0xAA])],
      agenda := [.hostStep 0 2 (.setAt (.var 1) (.lit (.int 1))
        (.bits .xor 8 (.index (.var 1) (.lit (.int 1))) (.lit (.int 0x01))))] })).map (fun t => lookupVar t.vars (0, 2)) =
      some (some (.bytes [0x55, 0x01, 0xAA])) := by decide
/-- P3 line 9 and line 4: a slice, and a field of a record. -/
theorem test_host_expressions :
    evalExpr [((0, 1), .bytes [1, 2, 3]), ((0, 2), .fields ⟨[], 12345, 9000, 0, 0⟩)] 0
      (.slice (.var 1) (.lit (.int 0)) (.lit (.int 2))) = some (.bytes [1, 2]) ∧
    evalExpr [((0, 1), .bytes [1, 2, 3]), ((0, 2), .fields ⟨[], 12345, 9000, 0, 0⟩)] 0 (.field .rawT (.var 2)) =
      some (.int 12345) ∧
    evalExpr [] 0 (.var 1) = none := by decide
theorem test_step_reserved : refusalOf (step { small 18 0 with agenda := [.issue 0 0x05 [] .nothing] }) =
    some .reservedSelector := by decide
theorem test_step_reset : (nextOf (step { small 18 0x1234 with agenda := [.reset] })) = some (small 18 0xFFFF) := by
  decide
/-- Every opcode-table word, placed after reset, is run by the next step (log entry 5). -/
theorem test_placed_words : ([0x01, 0x02, 0x03, 0x04, 0x10, 0x11, 0x12, 0x13].map fun w =>
      (nextOf (step (State.reset.withFetchWord 8 w))).isSome) = List.replicate 8 true := by decide

/-! ### Witnesses: the hypotheses of the statements are met -/

theorem witness_CrcBitstepShiftsThenXorsPoly : (0x0001 : Word16).getLsbD 0 = true ∧ (0x0002 : Word16).getLsbD 0 = false := by
  decide
theorem witness_CrcByteMergesThenTakesEightSteps : 8 ≤ 8 := by decide
theorem witness_CrcBitstepSixteenBitLaws : (0xFFFF : Word16).getLsbD 0 = true ∧ 14 < 15 := by decide
theorem witness_Crc16IsAffineOverXor : ([0x01, 0x02] : Bytes).length = ([0xFF, 0x00] : Bytes).length := by decide
theorem witness_SingleByteChangeAlwaysChangesCrc : (0x01 : Byte) ≠ 0 := by decide
theorem witness_U16FieldsAreLittleEndian :
    ([0x34, 0x12] : Bytes)[0]? = some 0x34 ∧ ([0x34, 0x12] : Bytes)[0 + 1]? = some 0x12 ∧
    ([0x34] : Bytes).length < 0 + 2 ∧
    4 ≤ 4 ∧ 4 ≤ ([0x55, 0xFF, 0xFE, 0xAA] : Bytes).length ∧ ([0x55, 0xFF, 0xFE, 0xAA] : Bytes).head? = some 0x55 ∧
    rdU16LE [0x55, 0xFF, 0xFE, 0xAA] 1 = .ok 0xFEFF := by decide
theorem witness_ReadU32LEIsBytewiseAndBounded :
    ([0x39, 0x30, 0x00, 0x01] : Bytes)[0]? = some 0x39 ∧ ([0x39, 0x30, 0x00, 0x01] : Bytes)[0 + 1]? = some 0x30 ∧
    ([0x39, 0x30, 0x00, 0x01] : Bytes)[0 + 2]? = some 0x00 ∧ ([0x39, 0x30, 0x00, 0x01] : Bytes)[0 + 3]? = some 0x01 ∧
    ([0x39, 0x30, 0x00] : Bytes).length < 0 + 4 := by decide
theorem witness_FrameLayout : 0 < ([0x31] : Bytes).length := by decide
theorem witness_ReservedSelectorsAreRefused :
    (0x00 : BitVec 8).toNat = 0 ∧ (5 ≤ (0x05 : BitVec 8).toNat ∧ (0x0F : BitVec 8).toNat ≤ 0x0F) ∧
    0x14 ≤ (0x14 : BitVec 8).toNat ∧
    ({ small 18 0 with agenda := [.issue 0 0x14 [.lit (.int 0)] .nothing] } : State).agenda =
      .issue 0 0x14 [.lit (.int 0)] .nothing :: [] ∧
    evalOperands (small 18 0).vars 0 [.lit (.int 0)] = some [.int 0] ∧
    ({ small 18 0 with agenda := [.issue 0 0x14 [.var 1] .nothing] } : State).agenda =
      .issue 0 0x14 [.var 1] .nothing :: [] ∧
    evalOperands (small 18 0).vars 0 [.var 1] = none := by decide
theorem witness_EachInstructionHasOneRequest : decode ⟨0x03, [.int 255]⟩ = .ok (.crcUpdate 0xFF) := by decide
theorem witness_OperandsOutsideTheirRangesAreRefused :
    (∃ n ∈ ([0, 256] : List Int), n < 0 ∨ 255 < n) ∧ (∃ n ∈ ([-1] : List Int), n < 0 ∨ 255 < n) ∧
    ((256 : Int) < 0 ∨ 255 < (256 : Int)) ∧ ((-1 : Int) < 0 ∨ 4294967295 < (-1 : Int)) ∧
    ((4294967296 : Int) < 0 ∨ 4294967295 < (4294967296 : Int)) := by decide
theorem witness_StatusLinesBindStatusAndOkValue :
    (1 : VarName) ≠ 2 ∧ ((1, 1) : VarKey) ≠ (0, 1) ∧ ((1, 1) : VarKey) ≠ (0, 2) ∧
    (∃ p, Result.unframed (.ok []) = .unframed (.ok p) ∧ Value.bytes [] = bytesValue p) ∧
    (∃ t, Result.decoded (.ok ⟨[], 0, 0, 0, 0⟩) = .decoded (.ok t) ∧ Value.fields ⟨[], 0, 0, 0, 0⟩ = .fields t) ∧
    (∃ e, Result.unframed (.err .frameTooShort) = .unframed (.err e)) ∧
    (∃ e, Result.decoded (.err .checksumMismatch) = .decoded (.err e)) :=
  ⟨by decide, by decide, by decide, ⟨[], rfl, rfl⟩, ⟨_, rfl, rfl⟩, ⟨_, rfl⟩, ⟨_, rfl⟩⟩
theorem witness_ValueLinesBindTheResult :
    (∃ c, Result.u16 0xFFFF = .u16 c ∧ Value.int 65535 = .int c.toNat) ∧
    (∃ f, Result.frame [0x55] = .frame f ∧ Value.bytes [0x55] = bytesValue f) ∧
    (∃ u, Result.unframed (.err .badStartByte) = .unframed u ∧ Value.unframed (.err .badStartByte) = .unframed u) ∧
    (∃ t, Result.fields ⟨[], 0, 0, 0, 0⟩ = .fields t ∧ Value.fields ⟨[], 0, 0, 0, 0⟩ = .fields t) ∧
    (∃ d, Result.decoded (.ok ⟨[], 0, 0, 0, 0⟩) = .decoded d ∧ Value.decoded (.ok ⟨[], 0, 0, 0, 0⟩) = .decoded d) ∧
    ((1, 1) : VarKey) ≠ (0, 1) :=
  ⟨⟨_, rfl, rfl⟩, ⟨_, rfl, rfl⟩, ⟨_, rfl, rfl⟩, ⟨_, rfl, rfl⟩, ⟨_, rfl, rfl⟩, by decide⟩

/-- The hypotheses shared by the statements about operations: an admitted configuration, an owning issuer, lengths at and just
past the bounds. -/
theorem witness_operation_hypotheses :
    admittedConfig (small 18 0).cfg = true ∧ admittedConfig (small 19 0).cfg = true ∧
    (small 18 0).issuer = (small 18 0).owner ∧
    (List.replicate 32 (0 : Byte)).length ≤ (small 18 0).cfg.maxFrameLen ∧
    (small 18 0).cfg.maxFrameLen < (List.replicate 33 (0 : Byte)).length ∧
    (List.replicate 28 (0 : Byte)).length ≤ (small 18 0).cfg.maxFrameLen - 4 ∧
    (small 18 0).cfg.maxFrameLen - 4 < (List.replicate 29 (0 : Byte)).length := by decide
theorem witness_Crc16ReturnsChecksumOfData : admittedConfig (small 18 0).cfg = true ∧
    (List.replicate 32 (0 : Byte)).length ≤ (small 18 0).cfg.maxFrameLen ∧
    (small 18 0).cfg.maxFrameLen < (List.replicate 33 (0 : Byte)).length ∧
    (∃ n ∈ ([256] : List Int), n < 0 ∨ 255 < n) := by decide
theorem witness_CrcInitSetsAccToInit : admittedConfig (small 18 0).cfg = true ∧ (small 18 0).issuer = (small 18 0).owner := by
  decide
theorem witness_CrcUpdateFoldsOneByteIntoAcc : admittedConfig (small 19 0).cfg = true ∧
    (small 19 0).issuer = (small 19 0).owner ∧ ((256 : Int) < 0 ∨ 255 < (256 : Int)) := by decide
theorem witness_CrcReadReturnsAccUnchanged : admittedConfig (small 18 1).cfg = true ∧
    (small 18 1).issuer = (small 18 1).owner ∧ admittedConfig ⟨4, 18, 18⟩ = true := by decide
theorem witness_EncodeReturnsTheFrame : admittedConfig (small 18 0).cfg = true ∧
    (List.replicate 28 (0 : Byte)).length ≤ (small 18 0).cfg.maxFrameLen - 4 ∧
    (small 18 0).cfg.maxFrameLen - 4 < (List.replicate 29 (0 : Byte)).length := by decide
theorem witness_UnframeChecksRunInOrder :
    4 ≤ 4 ∧ ([0x55, 0xFF, 0xFF] : Bytes).length < 4 ∧
    (4 ≤ ([0x54, 0xFF, 0xFF, 0xAA] : Bytes).length ∧ ([0x54, 0xFF, 0xFF, 0xAA] : Bytes).head? ≠ some 0x55) ∧
    (4 ≤ ([0x55, 0xFF, 0xFE, 0xAA] : Bytes).length ∧ ([0x55, 0xFF, 0xFE, 0xAA] : Bytes).head? = some 0x55 ∧
      ([0x55, 0xFF, 0xFE, 0xAA] : Bytes)[4 - 3]? = some 0xFF ∧ ([0x55, 0xFF, 0xFE, 0xAA] : Bytes)[4 - 2]? = some 0xFE ∧
      crc16 [] ≠ (0xFE : Byte) ++ (0xFF : Byte)) ∧
    crc16 [] = (0xFF : Byte) ++ (0xFF : Byte) := by decide
theorem witness_LengthCheckUsesEachOperationsMinimum : admittedConfig (small 18 0).cfg = true ∧
    ([0x55, 0xFF, 0xFF] : Bytes).length ≤ (small 18 0).cfg.maxFrameLen := by decide
theorem witness_StartByteCheckFollowsLengthCheck : admittedConfig (small 19 0).cfg = true ∧
    (List.replicate 32 (0 : Byte)).length ≤ (small 19 0).cfg.maxFrameLen := by decide
theorem witness_CrcCheckCoversThePayloadRegion :
    4 ≤ 4 ∧ 4 ≤ ([0x55, 0xFE, 0xFF, 0xAA] : Bytes).length ∧ ([0x55, 0xFE, 0xFF, 0xAA] : Bytes)[0]? = some 0x55 ∧
    ([0x55, 0xFE, 0xFF, 0xAA] : Bytes)[4 - 3]? = some 0xFE ∧ ([0x55, 0xFE, 0xFF, 0xAA] : Bytes)[4 - 2]? = some 0xFF := by
  decide
theorem witness_EndByteIsNotChecked : 4 ≤ 4 ∧ 4 ≤ ([0x55, 0xFF, 0xFF] : Bytes).length + 1 ∧
    ([0x55, 0xFF, 0xFF] : Bytes).head? = some 0x55 ∧ ([0x55, 0xFF, 0xFF] : Bytes)[3 - 2]? = some 0xFF ∧
    ([0x55, 0xFF, 0xFF] : Bytes)[3 - 1]? = some 0xFF ∧
    crc16 ((([0x55, 0xFF, 0xFF] : Bytes).drop 1).take (3 - 3)) = (0xFF : Byte) ++ (0xFF : Byte) ∧
    unframeChecks ([0x55, 0xFF, 0xFF] ++ [0xAA]) 4 = .ok (.ok []) := by decide
theorem witness_UnframeReturnsTheOutcomeOfTheChecks : admittedConfig (small 18 0).cfg = true ∧
    (List.replicate 32 (0 : Byte)).length ≤ (small 18 0).cfg.maxFrameLen ∧
    (small 18 0).cfg.maxFrameLen < (List.replicate 33 (0 : Byte)).length ∧ ([0x55, 0xFF, 0xFF] : Bytes).length = 3 := by
  decide
theorem witness_ProjectReadsTheTwoAngles : admittedConfig (small 18 0).cfg = true ∧
    (14 ≤ (List.replicate 14 (0 : Byte)).length ∧
      (List.replicate 14 (0 : Byte)).length ≤ (small 18 0).cfg.maxFrameLen - 4) ∧
    (List.replicate 13 (0 : Byte)).length < 14 ∧
    (small 18 0).cfg.maxFrameLen - 4 < (List.replicate 29 (0 : Byte)).length ∧
    (((0 : Int) < 0 ∨ 4294967295 < (0 : Int)) ∨ ((4294967296 : Int) < 0 ∨ 4294967295 < (4294967296 : Int))) := by decide
/-- Both ways out of DECODE: a frame that is too short, and V-D5 at the minimum 18. -/
theorem witness_DecodeIsUnframeThenProject : admittedConfig (small 18 0).cfg = true ∧
    frameD5.length ≤ (small 18 0).cfg.maxFrameLen ∧
    unframeChecks (frameD5.take 17) (small 18 0).cfg.tlmMinLen = .ok (.err .frameTooShort) ∧
    unframeChecks frameD5 (small 18 0).cfg.tlmMinLen = .ok (.ok (payloadP2.take 14)) ∧
    (small 18 0).cfg.maxFrameLen < (List.replicate 33 (0 : Byte)).length ∧
    (((-1 : Int) < 0 ∨ 4294967295 < (-1 : Int)) ∨ ((0 : Int) < 0 ∨ 4294967295 < (0 : Int))) := by decide +kernel
/-- Two payloads that agree in bytes 6 to 13 only, and a frame of the least length. -/
theorem witness_OnlyTheAngleBytesDecideTheAngles :
    (payloadP2.drop 6).take 8 = ((payloadP2.set 0 0xFF).drop 6).take 8 ∧
    projectFields payloadP2 0 0 = .ok ⟨payloadP2, 12345, 9000, 12345, 9000⟩ ∧
    projectFields (payloadP2.set 0 0xFF) 0 0 = .ok ⟨payloadP2.set 0 0xFF, 12345, 9000, 12345, 9000⟩ ∧
    18 ≤ 18 ∧ unframeChecks frameD5 18 = .ok (.ok (payloadP2.take 14)) := by decide +kernel

/-- A machine whose last UNFRAME reported FrameTooShort. -/
def afterShort : State := (small 18 0x1234).handResult (.unframed (.err .frameTooShort))
/-- A machine whose last DECODE reported FrameTooShort. -/
def afterShortDecode : State := (small 18 0x1234).handResult (.decoded (.err .frameTooShort))

theorem witness_ErrorResultsRevealNothingOfTheFrame :
    exec (.unframe [0x55]) (small 18 0x1234) = .next afterShort ∧ afterShort.result = .unframed (.err .frameTooShort) ∧
    exec (.unframe [0x00, 0x01]) (small 18 0x1234) = .next afterShort ∧
    exec (.decodeFrame [0x55] 0 0) (small 18 0x1234) = .next afterShortDecode ∧
    afterShortDecode.result = .decoded (.err .frameTooShort) ∧
    exec (.decodeFrame [0x00] 1 2) (small 18 0x1234) = .next afterShortDecode :=
  ⟨eq_next_of_nextOf (by decide), rfl, eq_next_of_nextOf (by decide), eq_next_of_nextOf (by decide), rfl,
    eq_next_of_nextOf (by decide)⟩
theorem witness_ErrorIsAResultNotATrap :
    exec (.unframe [0x55]) (small 18 0x1234) = .next afterShort ∧ afterShort.result = .unframed (.err .frameTooShort) ∧
    exec (.decodeFrame [0x55] 0 0) (small 18 0x1234) = .next afterShortDecode ∧
    afterShortDecode.result = .decoded (.err .frameTooShort) :=
  ⟨eq_next_of_nextOf (by decide), rfl, eq_next_of_nextOf (by decide), rfl⟩
/-- The empty payload at FRAME_MIN_LEN 4, and 14 bytes at TLM_MIN_LEN 18. -/
theorem witness_UnframeAndDecodeInvertEncode :
    exec (.encodeFrame []) (small 18 0) = .next ((small 18 0).handResult (.frame [0x55, 0xFF, 0xFF, 0xAA])) ∧
    (small 18 0).cfg.frameMinLen ≤ ([] : Bytes).length + 4 ∧
    exec (.encodeFrame (payloadP2.take 14)) (small 18 0) = .next ((small 18 0).handResult (.frame frameD5)) ∧
    (small 18 0).cfg.tlmMinLen ≤ (payloadP2.take 14).length + 4 :=
  ⟨eq_next_of_nextOf (by decide +kernel), by decide +kernel, eq_next_of_nextOf (by decide +kernel), by decide +kernel⟩
/-- The last byte of a payload, at both minimum lengths and at MAX_FRAME_LEN. -/
theorem witness_OneChangedPayloadByteIsDetected : admittedConfig (small 18 0).cfg = true ∧
    (List.replicate 28 (0 : Byte)).length + 4 ≤ (small 18 0).cfg.maxFrameLen ∧ 27 < (List.replicate 28 (0 : Byte)).length ∧
    (List.replicate 28 (0 : Byte))[27]? ≠ some 0x80 ∧
    (small 18 0).cfg.frameMinLen ≤ (List.replicate 28 (0 : Byte)).length + 4 ∧
    (small 18 0).cfg.tlmMinLen ≤ (List.replicate 28 (0 : Byte)).length + 4 := by decide
theorem witness_OtherSingleByteCorruptions :
    (4 ≤ 5 ∧ 5 ≤ ([0x31] : Bytes).length + 4 ∧ (0x54 : Byte) ≠ 0x55 ∧
      (frameOf [0x31])[1 + 1]? ≠ some 0x54 ∧ (frameOf [0x31])[1 + 2]? ≠ some 0x54 ∧ ([0x31] : Bytes).length + 3 < 5) ∧
    (4 ≤ ([0x31] : Bytes).length + 3 ∧ ([0x31] : Bytes) = [] ++ [0x31]) := by decide
theorem witness_OnlyInitAndUpdateWriteAcc :
    exec .crcInit (small 18 0x1234) = .next (small 18 0xFFFF) ∧
    exec .crcRead (small 18 0x1234) = .next ((small 18 0x1234).handResult (.u16 0x1234)) ∧
    (Instr.crc16 []).usesAcc = false ∧
    exec (.crc16 []) (small 18 0x1234) = .next ((small 18 0x1234).handResult (.u16 0xFFFF)) :=
  ⟨eq_next_of_nextOf (by decide), eq_next_of_nextOf (by decide), rfl, eq_next_of_nextOf (by decide)⟩
theorem witness_NothingButAccSurvivesAnOperation :
    exec (.crcUpdate 0x31) (small 18 0xFFFF) = .next (small 18 0x947E) ∧
    exec (.crc16 (List.replicate 33 0)) (small 18 0) = .refused .operandTooLong :=
  ⟨eq_next_of_nextOf (by decide), eq_refused_of_refusalOf (by decide)⟩
theorem witness_PureOperationsDoNotAffectLaterOnes : (Instr.encodeFrame []).usesAcc = false ∧
    exec (.encodeFrame []) (small 18 0) = .next ((small 18 0).handResult (.frame [0x55, 0xFF, 0xFF, 0xAA])) :=
  ⟨rfl, eq_next_of_nextOf (by decide)⟩
theorem witness_OperationsCompleteExactlyWhenAdmitted : Admitted (.crc16 []) (small 18 0) ∧ Admitted .crcRead (small 19 0) ∧
    ¬ Admitted .crcRead { small 18 0 with issuer := 1 } := by
  refine ⟨⟨by decide, by decide, by decide⟩, ⟨by decide, by decide, fun _ => rfl⟩, fun h => ?_⟩
  exact absurd (h.2.2 rfl) (by decide)
theorem witness_ConfigurationIsCheckedAndFixed : admittedConfig (small 17 0).cfg = false ∧
    admittedConfig ⟨3, 18, 32⟩ = false ∧ step (small 18 0) = .next (small 18 0) := ⟨by decide, by decide, rfl⟩
theorem witness_AccBelongsToItsOwner : (Instr.unframe [0x55]).usesAcc = false ∧
    exec (.unframe [0x55]) (small 18 0x1234) = .next afterShort ∧
    admittedConfig (small 18 0).cfg = true ∧ Instr.crcInit.usesAcc = true ∧
    ({ small 18 0 with issuer := 1 } : State).issuer ≠ ({ small 18 0 with issuer := 1 } : State).owner :=
  ⟨rfl, eq_next_of_nextOf (by decide), by decide, rfl, by decide⟩
theorem witness_AccIsTheChecksumOfTheBytesFed :
    (∀ i ∈ [Instr.crcUpdate 0x31], i ≠ .crcInit) ∧
    execAll [.crcInit, .crcUpdate 0x31] (small 18 0x1234) = .next (small 18 0x947E) ∧
    execAll [.crcUpdate 0x31] (small 18 0xFFFF) = .next (small 18 0x947E) :=
  ⟨by decide, eq_next_of_nextOf (by decide), eq_next_of_nextOf (by decide)⟩
theorem witness_ByteSerialAgreesWithWholeList : admittedConfig (small 18 0x1234).cfg = true ∧
    (small 18 0x1234).issuer = (small 18 0x1234).owner := by decide
/-- P1 line 5: the checksum of "123" is in ACC. -/
theorem witness_StaleAccumulatorContinues : admittedConfig (small 18 0x7A75).cfg = true ∧
    (small 18 0x7A75).issuer = (small 18 0x7A75).owner ∧ (small 18 0x7A75).acc = crc16 [0x31, 0x32, 0x33] := by decide +kernel
theorem witness_CrcSeqComputesCrc16 : admittedConfig (small 18 0).cfg = true ∧ (small 18 0).owner = 0 ∧
    ({ small 18 0 with agenda := crcSeqLines 0 [0x31] 7 } : State).agenda = crcSeqLines 0 [0x31] 7 ++ [] := by decide
theorem witness_ResetSetsAccAndNothingElse : ({ small 18 0 with agenda := [.reset] } : State).agenda = [.reset] ∧
    admittedConfig ⟨4, 18, 18⟩ = true ∧ (Instr.project (List.replicate 14 0) 0 0).wf ⟨4, 18, 18⟩ = true := by decide
/-- A machine with one line to run: CRC.READ bound to variable 1. -/
def oneRead : State := { small 18 0x7A75 with agenda := [.issue 0 0x04 [] (.value 1)] }

theorem witness_StepRunsTheDecodedOperation :
    oneRead.agenda = .issue 0 0x04 [] (.value 1) :: [] ∧ evalOperands oneRead.vars 0 [] = some [] ∧
    decode ⟨0x04, []⟩ = .ok .crcRead ∧
    exec .crcRead { oneRead with issuer := 0, agenda := [] } = .next ((small 18 0x7A75).handResult (.u16 0x7A75)) ∧
    bindResult [] 0 (.value 1) (.u16 0x7A75) = [((0, 1), .int 0x7A75)] ∧
    exec .crcRead { oneRead with issuer := 1, agenda := [] } = .refused .concurrentAccUse :=
  ⟨rfl, rfl, rfl, eq_next_of_nextOf (by decide), by decide, eq_refused_of_refusalOf (by decide)⟩
theorem witness_StepRunsAPlacedTableWord : decodeTableWord 8 0x02 = some .crcInit ∧
    exec .crcInit { small 18 0x1234 with issuer := (small 18 0x1234).owner } = .next (small 18 0xFFFF) :=
  ⟨by decide, eq_next_of_nextOf (by decide)⟩
theorem witness_HostStepsLeaveTheBlockAlone : (small 18 0).agenda = [] ∧
    ({ small 18 0 with agenda := [.hostStep 0 1 (.lit (.int 5))] } : State).agenda = .hostStep 0 1 (.lit (.int 5)) :: [] ∧
    evalExpr [] 0 (.lit (.int 5)) = some (.int 5) ∧
    ({ small 18 0 with agenda := [.passAcc 1] } : State).agenda = .passAcc 1 :: [] := by decide
theorem witness_ProgramsEndAfterTheirLastAct :
    oneRead.agenda = .issue 0 0x04 [] (.value 1) :: [] ∧
    (∃ t, step oneRead = .next t) ∧ (∃ t, runSteps oneRead.agenda.length oneRead = .next t) ∧
    step { oneRead with owner := 1 } = .refused .concurrentAccUse :=
  ⟨rfl, ⟨{ small 18 0x7A75 with result := .u16 0x7A75, vars := [((0, 1), .int 0x7A75)] }, eq_next_of_nextOf (by decide)⟩,
    ⟨{ small 18 0x7A75 with result := .u16 0x7A75, vars := [((0, 1), .int 0x7A75)] }, eq_next_of_nextOf (by decide)⟩,
    eq_refused_of_refusalOf (by decide)⟩
theorem witness_EveryStepKeepsTheInvariant : Inv oneRead ∧ (∃ t, step oneRead = .next t) :=
  ⟨⟨by decide, trivial, List.nodup_nil⟩, { small 18 0x7A75 with result := .u16 0x7A75, vars := [((0, 1), .int 0x7A75)] },
    eq_next_of_nextOf (by decide)⟩
theorem witness_ResetMeetsTheInvariant : admittedConfig ⟨4, 18, 18⟩ = true ∧ admittedConfig ⟨4, 19, 19⟩ = true := by decide

end Sys2Proof.Tests
end

namespace Sys2Proof.Machine

/-! ### An operation as a function of what it may read

R14 and R19 speak of what an operation reads and writes. The two functions below take just that: the configuration, whether
the issuer owns ACC, and ACC. `exec_eq_finish` ties them to `exec`; the frame of an operation and its independence of the
rest of the state are then read off. -/

/-- ACC after an operation that completes, from ACC before it. -/
def accAfter (i : Instr) (acc : Word16) : Word16 :=
  match i with
  | .crcInit => INIT
  | .crcUpdate b => crcByte acc b
  | _ => acc

/-- The result of an operation, or the reason it is refused. -/
def resultOf (i : Instr) (c : Config) (owned : Bool) (acc : Word16) : Checked Result := do
  require (admittedConfig c) .badConfiguration
  match i with
  | .crc16 data => (fun _ => .u16 (crc16 data)) <$> checkLength data c.maxFrameLen
  | .crcInit => (fun _ => .nothing) <$> require owned .concurrentAccUse
  | .crcUpdate _ => (fun _ => .nothing) <$> require owned .concurrentAccUse
  | .crcRead => (fun _ => .u16 acc) <$> require owned .concurrentAccUse
  | .encodeFrame payload => (fun _ => .frame (frameOf payload)) <$> checkLength payload (maxPayloadLen c)
  | .unframe raw => do
    checkLength raw c.maxFrameLen
    .unframed <$> unframeChecks raw c.frameMinLen
  | .project payload oT oR => do
    checkLength payload (maxPayloadLen c)
    .fields <$> projectFields payload oT oR
  | .decodeFrame raw oT oR => do
    checkLength raw c.maxFrameLen
    .decoded <$> decodeTelemetry raw c.tlmMinLen oT oR

/-- An operation writes ACC and its result, and reads the configuration, the ownership of ACC and ACC: each meaning is a chain
of checks with one write of the state at its end, so re-associating the chain brings that write out. -/
theorem exec_eq_finish (i : Instr) (s : State) :
    exec i s = finish ((s.writeAcc (accAfter i s.acc)).handResult <$> resultOf i s.cfg (s.issuer == s.owner) s.acc) := by
  cases i <;> simp only [resultOf, map_eq_pure_bind, bind_assoc, pure_bind] <;> rfl

theorem exec_eq_next {i : Instr} {s t : State} : exec i s = .next t ↔
    ∃ r, resultOf i s.cfg (s.issuer == s.owner) s.acc = .ok r ∧ t = (s.writeAcc (accAfter i s.acc)).handResult r := by
  rw [exec_eq_finish, finish_eq_next]
  cases resultOf i s.cfg (s.issuer == s.owner) s.acc <;> simp [eq_comm]

theorem exec_eq_refused {i : Instr} {s : State} {e : Refusal} :
    exec i s = .refused e ↔ resultOf i s.cfg (s.issuer == s.owner) s.acc = .error e := by
  rw [exec_eq_finish, finish_eq_refused]
  cases resultOf i s.cfg (s.issuer == s.owner) s.acc <;> simp

/-- A pure operation leaves ACC as it is. -/
theorem accAfter_of_pure {i : Instr} (hi : i.usesAcc = false) (a : Word16) : accAfter i a = a := by
  cases i with
  | crcInit | crcUpdate _ | crcRead => cases hi
  | _ => rfl

/-- What a pure operation answers is the same whoever owns ACC and whatever it holds. -/
theorem resultOf_of_pure {i : Instr} (hi : i.usesAcc = false) (c : Config) (owned owned' : Bool) (a a' : Word16) :
    resultOf i c owned a = resultOf i c owned' a' := by
  cases i with
  | crcInit | crcUpdate _ | crcRead => cases hi
  | _ => rfl

/-- Settles O38: the new ACC is `accAfter`, and a pure operation keeps it and has a `resultOf` that does not depend on it. -/
theorem onlyInitAndUpdateWriteAcc : Obligations.OnlyInitAndUpdateWriteAcc := by
  refine ⟨fun i s t h => ?acc, fun s t h => ?read, fun i s t a hi h => ?pure, fun c => rfl⟩
  case acc =>
    obtain ⟨r, -, rfl⟩ := exec_eq_next.1 h
    cases i <;> rfl
  case read =>
    obtain ⟨-, -, rfl⟩ := execCrcRead_next h
    rfl
  case pure =>
    obtain ⟨r, hr, rfl⟩ := exec_eq_next.1 h
    refine exec_eq_next.2 ⟨r, (resultOf_of_pure hi ..).trans hr, ?_⟩
    rw [accAfter_of_pure hi, accAfter_of_pure hi]
    rfl

/-- Settles O39: neither `accAfter` nor `resultOf` takes the last result, the host variables or the agenda. -/
theorem nothingButAccSurvivesAnOperation : Obligations.NothingButAccSurvivesAnOperation := by
  refine ⟨fun i s t h => ?frame, fun i s t r vars agenda h => ?next, fun i s e r vars agenda h => ?refused⟩
  case frame =>
    obtain ⟨r, -, rfl⟩ := exec_eq_next.1 h
    rfl
  case next =>
    obtain ⟨r', hr, rfl⟩ := exec_eq_next.1 h
    exact exec_eq_next.2 ⟨r', hr, rfl⟩
  case refused =>
    have hr := exec_eq_refused.1 h
    exact exec_eq_refused.2 hr

end Sys2Proof.Machine

namespace Sys2Proof.Machine

/-! ### Little-endian fields in byte lists (R24 to R26)

A field read looks at the list from its offset on. The bytes that stand at the offset, or their absence, decide that rest of
the list, and with it what the read answers. -/

theorem drop_eq_cons_of_getElem? {l : Bytes} {off : Nat} {b : Byte} (h : l[off]? = some b) :
    l.drop off = b :: l.drop (off + 1) := by
  obtain ⟨hlt, rfl⟩ := List.getElem?_eq_some_iff.1 h
  exact List.drop_eq_getElem_cons hlt

theorem rdU16LE_of_bytes {l : Bytes} {off : Nat} {lo hi : Byte} (h0 : l[off]? = some lo) (h1 : l[off + 1]? = some hi) :
    rdU16LE l off = .ok (lo.setWidth 16 ||| (hi.setWidth 16 <<< 8)) :=
  rdU16LE_eq_ok.2 ⟨lo, hi, _, by rw [drop_eq_cons_of_getElem? h0, drop_eq_cons_of_getElem? h1], rfl⟩

theorem readU32LE_of_bytes {l : Bytes} {off : Nat} {b0 b1 b2 b3 : Byte} (h0 : l[off]? = some b0)
    (h1 : l[off + 1]? = some b1) (h2 : l[off + 2]? = some b2) (h3 : l[off + 3]? = some b3) :
    readU32LE l off =
      .ok (b0.setWidth 32 ||| (b1.setWidth 32 <<< 8) ||| (b2.setWidth 32 <<< 16) ||| (b3.setWidth 32 <<< 24)) := by
  unfold readU32LE
  rw [drop_eq_cons_of_getElem? h0, drop_eq_cons_of_getElem? h1, drop_eq_cons_of_getElem? h2, drop_eq_cons_of_getElem? h3]

/-- Too few bytes are left for the pattern of a 16-bit read. -/
theorem rdU16LE_past_end {l : Bytes} {off : Nat} (h : l.length < off + 2) : rdU16LE l off = .error .fieldOutOfBounds := by
  have hl : (l.drop off).length < 2 := by rw [List.length_drop]; omega
  unfold rdU16LE
  split
  · next heq => simp [heq] at hl
  · rfl

/-- Too few bytes are left for the pattern of a 32-bit read. -/
theorem readU32LE_past_end {l : Bytes} {off : Nat} (h : l.length < off + 4) : readU32LE l off = .error .fieldOutOfBounds := by
  have hl : (l.drop off).length < 4 := by rw [List.length_drop]; omega
  unfold readU32LE
  split
  · next heq => simp [heq] at hl; omega
  · rfl

/-- Setting a byte above everything a value holds adds the byte at its weight: no bit of the two overlaps. -/
theorem toNat_or_byte_shiftLeft {w k : Nat} {x : BitVec w} (b : Byte) (hx : x.toNat < 2 ^ k) (hk : k + 8 ≤ w) :
    (x ||| (b.setWidth w <<< k)).toNat = x.toNat + 2 ^ k * b.toNat := by
  have hb : b.toNat < 2 ^ 8 := b.isLt
  have hbyte : b.toNat < 2 ^ w := hb.trans_le (Nat.pow_le_pow_right (by decide) (by omega))
  have hshift : 2 ^ k * b.toNat < 2 ^ w :=
    calc 2 ^ k * b.toNat < 2 ^ k * 2 ^ 8 := Nat.mul_lt_mul_of_pos_left hb (Nat.two_pow_pos k)
      _ = 2 ^ (k + 8) := (Nat.pow_add ..).symm
      _ ≤ 2 ^ w := Nat.pow_le_pow_right (by decide) hk
  have hplaced : (b.setWidth w <<< k).toNat = 2 ^ k * b.toNat := by
    rw [BitVec.toNat_shiftLeft, BitVec.toNat_setWidth, Nat.mod_eq_of_lt hbyte, Nat.shiftLeft_eq, Nat.mul_comm,
      Nat.mod_eq_of_lt hshift]
  rw [BitVec.toNat_or, hplaced, Nat.or_comm, ← Nat.two_pow_add_eq_or_of_lt hx, Nat.add_comm]

/-- The number a little-endian 32-bit field holds, built up byte by byte from the lowest. -/
theorem toNat_four_bytes (b0 b1 b2 b3 : Byte) :
    (b0.setWidth 32 ||| (b1.setWidth 32 <<< 8) ||| (b2.setWidth 32 <<< 16) ||| (b3.setWidth 32 <<< 24)).toNat =
      b0.toNat + 2 ^ 8 * b1.toNat + 2 ^ 16 * b2.toNat + 2 ^ 24 * b3.toNat := by
  have l0 := b0.isLt
  have l1 := b1.isLt
  have l2 := b2.isLt
  have e0 : (b0.setWidth 32).toNat = b0.toNat := BitVec.toNat_setWidth_of_le (by decide)
  have e1 := toNat_or_byte_shiftLeft (x := b0.setWidth 32) (k := 8) b1 (by omega) (by decide)
  have e2 := toNat_or_byte_shiftLeft (k := 16) b2 (by rw [e1]; omega) (by decide)
  rw [toNat_or_byte_shiftLeft (k := 24) b3 (by rw [e2]; omega) (by decide), e2, e1, e0]

/-- Settles O10: the four bytes read are a sum of bytes at their weights, and past the end there are not four. -/
theorem readU32LEIsBytewiseAndBounded : Obligations.ReadU32LEIsBytewiseAndBounded :=
  ⟨fun _ _ b0 b1 b2 b3 h0 h1 h2 h3 => ⟨_, readU32LE_of_bytes h0 h1 h2 h3, toNat_four_bytes b0 b1 b2 b3⟩,
    fun _ _ => readU32LE_past_end⟩

/-- A read undoes a write, wherever the field stands in its list. -/
theorem rdU16LE_u16le (v : Word16) (pre post : Bytes) : rdU16LE (pre ++ u16le v ++ post) pre.length = .ok v := by
  have hdrop : (pre ++ u16le v ++ post).drop pre.length = v.extractLsb' 0 8 :: v.extractLsb' 8 8 :: post := by
    rw [List.append_assoc, List.drop_left]
    rfl
  exact rdU16LE_eq_ok.2 ⟨_, _, post, hdrop, by rw [low_or_high_eq_append, append_high_low]⟩

/-- On a buffer that is long enough and starts with the marker, the checks report a mismatch exactly when the checksum of the
payload region is not the CRC field's value. -/
theorem unframeChecks_eq_mismatch_iff {raw : Bytes} {minlen : Nat} {rx : Word16} (hmin : 4 ≤ minlen)
    (hlen : minlen ≤ raw.length) (hstart : raw.head? = some START) (hrx : rdU16LE raw (raw.length - 3) = .ok rx) :
    unframeChecks raw minlen = .ok (.err .checksumMismatch) ↔ crc16 ((raw.drop 1).take (raw.length - 4)) ≠ rx := by
  rw [← slice_payload_region]
  obtain ⟨hshort, -⟩ | ⟨-, hbad, -⟩ | ⟨-, -, rx', hrx', hcrc⟩ := unframeChecks_cases raw minlen hmin
  · omega
  · exact absurd hstart hbad
  · obtain rfl : rx = rx' := Except.ok.inj (hrx.symm.trans hrx')
    obtain ⟨hne, hans⟩ | ⟨heq, hans⟩ := hcrc
    · simp [hans, hne]
    · simp [hans, heq]

/-- Settles O9: the byte order and bound of the read, the round trip, and the two uses of the field. -/
theorem u16FieldsAreLittleEndian : Obligations.U16FieldsAreLittleEndian :=
  ⟨fun _ => rfl, fun _ _ _ _ => rdU16LE_of_bytes, fun _ _ => rdU16LE_past_end, rdU16LE_u16le, fun _ => rfl,
    fun _ _ _ => unframeChecks_eq_mismatch_iff⟩

/-- From the byte after the payload on, a frame holds the CRC field and the end marker. -/
theorem frameOf_getElem?_after_payload (p : Bytes) (k : Nat) :
    (frameOf p)[p.length + 1 + k]? = (u16le (crc16 p) ++ [END_MARK])[k]? := by
  have hlen : ([START] ++ p).length ≤ p.length + 1 + k := by simp
  rw [frameOf, List.append_assoc, List.getElem?_append_right hlen]
  congr 1
  simp

/-- Settles O8: the two bytes after the payload are `u16le` of the checksum. -/
theorem frameCrcFieldIsLowByteFirst : Obligations.FrameCrcFieldIsLowByteFirst :=
  fun p => ⟨frameOf_getElem?_after_payload p 0, frameOf_getElem?_after_payload p 1⟩

end Sys2Proof.Machine

namespace Sys2Proof.Machine

/-! ### Requests and selectors (R39, R40) -/

/-- The operand checks of R40 accept the operand values of an instruction and lose nothing of them. -/
theorem decodeOperands_operandValues (i : Instr) : decodeOperands i.opName i.operandValues = .ok i := by
  cases i <;>
    simp [decodeOperands, Instr.opName, Instr.operandValues, bytesValue, byteValue, originValue, asBytes_map_toNat,
      asByte_toNat, asOrigin_toNat, decode_bind_eq_ok, pure, Except.pure]

theorem decode_encode (i : Instr) : decode (encode i) = .ok i := by
  have hsel : decodeSelector (encode i).selector = some i.opName := decodeSelector_eq_some.2 rfl
  rw [decode, hsel]
  exact decodeOperands_operandValues i

/-- An operation's selector, as an opcode-table word, is read as that operation: its operands of zeros are admitted. -/
theorem decodeTableWord_selector (op : OpName) : (decodeTableWord 8 op.selector.toNat).map Instr.opName = some op := by
  cases op <;> rfl

/-- Settles O12: each request is the encoding of its instruction, and each table word the selector of its operation. -/
theorem selectorTableDecodes : Obligations.SelectorTableDecodes :=
  ⟨decode_encode (.crc16 [0x31, 0x32]), decode_encode .crcInit, decode_encode (.crcUpdate 0x31), decode_encode .crcRead,
    decode_encode (.encodeFrame [0x55]), decode_encode (.unframe [0x55, 0xFF, 0xFF, 0xAA]),
    decode_encode (.project [0x39, 0x30] 2345 0xFFFFFFFF), decode_encode (.decodeFrame [] 12345 9000),
    decodeTableWord_selector .crc16, decodeTableWord_selector .crcInit, decodeTableWord_selector .crcUpdate,
    decodeTableWord_selector .crcRead, decodeTableWord_selector .encodeFrame, decodeTableWord_selector .unframe,
    decodeTableWord_selector .project, decodeTableWord_selector .decodeFrame⟩

/-! ### The layout of a frame (R34) -/

theorem frameOf_getElem?_payload {p : Bytes} {k : Nat} (hk : k < p.length) : (frameOf p)[1 + k]? = p[k]? := by
  have hframe : frameOf p = START :: (p ++ (u16le (crc16 p) ++ [END_MARK])) := by simp [frameOf]
  rw [hframe, Nat.add_comm, List.getElem?_cons_succ, List.getElem?_append_left hk]

/-- Settles O11: the start marker, the payload one place further on, and the three bytes after it. -/
theorem frameLayout : Obligations.FrameLayout := by
  intro p
  have hcrcLow := frameOf_getElem?_after_payload p 0
  have hcrcHigh := frameOf_getElem?_after_payload p 1
  have hend := frameOf_getElem?_after_payload p 2
  refine ⟨frameOf_length p, rfl, fun k => frameOf_getElem?_payload, ?low, ?high, ?last⟩
  case low => rwa [Nat.add_comm]
  case high => rwa [Nat.add_comm]
  case last => rwa [Nat.add_comm]

/-! ### Status codes (R42) -/

theorem codecResult_status_toNat_lt {α : Type} : ∀ r : CodecResult α, r.status.toNat < 4
  | .ok _ => by simp [CodecResult.status]
  | .err .frameTooShort | .err .badStartByte | .err .checksumMismatch => by simp [CodecResult.status, CodecError.status]

theorem statusAndValue_unframed_fst (r : CodecResult Bytes) :
    (Result.unframed r).statusAndValue.map Prod.fst = some r.status := by
  cases r <;> rfl

theorem statusAndValue_decoded_fst (r : CodecResult TelemetryFields) :
    (Result.decoded r).statusAndValue.map Prod.fst = some r.status := by
  cases r <;> rfl

/-- Settles O17: the table's values are those of the definition; that no other is produced is a case split on the result. -/
theorem statusCodesAreThoseOfTheTable : Obligations.StatusCodesAreThoseOfTheTable :=
  ⟨fun _ => rfl, fun _ => rfl, rfl, rfl, rfl, codecResult_status_toNat_lt, codecResult_status_toNat_lt,
    statusAndValue_unframed_fst, statusAndValue_decoded_fst, rfl, fun _ => rfl, fun _ => rfl, fun _ => rfl⟩

/-! ### The lines of CRC.SEQ (R44)

A line with literal operands decodes to the instruction it was written from, so its step is read off `resultOf` and
`accAfter`. The steps of CRC.SEQ then follow the list of bytes. -/

/-- The state a line of ACC's owner leaves behind when its operation answers `r`: ACC, the issuer, the result, the host's
variables and the agenda move. -/
def State.afterOwnerLine (s : State) (i : Instr) (b : Bind) (r : Result) (rest : List Act) : State :=
  { s with acc := accAfter i s.acc, issuer := s.owner, result := r, vars := bindResult s.vars s.owner b r, agenda := rest }

/-- A line of ACC's owner whose operands are literals carries out its instruction, when the operation answers. -/
theorem step_issueLine_of_owner {s : State} {i : Instr} {b : Bind} {r : Result} {rest : List Act}
    (hagenda : s.agenda = issueLine s.owner i b :: rest) (hr : resultOf i s.cfg true s.acc = .ok r) :
    step s = .next (s.afterOwnerLine i b r rest) := by
  have hexec : exec i { s with issuer := s.owner, agenda := rest } =
      .next { s with acc := accAfter i s.acc, issuer := s.owner, result := r, agenda := rest } :=
    exec_eq_next.2 ⟨r, by rw [beq_self_eq_true]; exact hr, rfl⟩
  have hdecode : decode ⟨(encode i).selector, (encode i).operands⟩ = .ok i := decode_encode i
  simp only [step, nextAct, hagenda, issueLine, runAct, evalOperands_lit, runRequest, hdecode, hexec, bindOutcome,
    State.afterOwnerLine]

theorem runSteps_succ_of_step {s u : State} (k : Nat) (hstep : step s = .next u) : runSteps (k + 1) s = runSteps k u := by
  simp only [runSteps, hstep]

section
variable {c : Config} (hc : admittedConfig c = true) (acc : Word16)
include hc

theorem resultOf_crcInit : resultOf .crcInit c true acc = .ok .nothing := by
  rw [resultOf, hc]
  rfl

theorem resultOf_crcUpdate (b : Byte) : resultOf (.crcUpdate b) c true acc = .ok .nothing := by
  rw [resultOf, hc]
  rfl

theorem resultOf_crcRead : resultOf .crcRead c true acc = .ok (.u16 acc) := by
  rw [resultOf, hc]
  rfl

end

/-- Lines that feed bytes, run by ACC's owner: ACC becomes the fold over the bytes, and the lines are gone. The issuer and the
result are then what every CRC.UPDATE leaves, so nothing else moves. -/
theorem runSteps_updateLines (data : Bytes) {s : State} {rest : List Act} (k : Nat) (hc : admittedConfig s.cfg = true)
    (hissuer : s.issuer = s.owner) (hresult : s.result = .nothing)
    (hagenda : s.agenda = data.map (fun b => issueLine s.owner (.crcUpdate b) .nothing) ++ rest) :
    runSteps (data.length + k) s = runSteps k { s with acc := crc16From s.acc data, agenda := rest } := by
  induction data generalizing s with
  | nil =>
    obtain rfl : s.agenda = rest := hagenda
    rw [List.length_nil, Nat.zero_add, crc16From_nil]
  | cons b data ih =>
    rw [List.map_cons, List.cons_append] at hagenda
    have hstep := step_issueLine_of_owner hagenda (resultOf_crcUpdate hc s.acc b)
    rw [List.length_cons, Nat.add_right_comm, runSteps_succ_of_step _ hstep,
      ih (s := s.afterOwnerLine _ _ _ _) hc rfl rfl rfl, crc16From_cons, hissuer, hresult]
    rfl

/-- A CRC.READ line, run by ACC's owner, binds what ACC holds. -/
theorem runSteps_readLine {s : State} {x : VarName} {rest : List Act} (hc : admittedConfig s.cfg = true)
    (hagenda : s.agenda = issueLine s.owner .crcRead (.value x) :: rest) :
    runSteps 1 s = .next { s with
      issuer := s.owner, result := .u16 s.acc, vars := bindVar s.vars (s.owner, x) (.int s.acc.toNat), agenda := rest } :=
  runSteps_succ_of_step 0 (step_issueLine_of_owner hagenda (resultOf_crcRead hc s.acc))

/-- ACC's owner runs CRC.SEQ to its end: CRC.INIT starts the fold, the CRC.UPDATEs carry it out, CRC.READ binds it. -/
theorem runSteps_crcSeqLines {s : State} {data : Bytes} {x : VarName} {rest : List Act} (hc : admittedConfig s.cfg = true)
    (hagenda : s.agenda = crcSeqLines s.owner data x ++ rest) :
    runSteps (data.length + 2) s = .next { s with
      acc := crc16 data, issuer := s.owner, result := .u16 (crc16 data),
      vars := bindVar s.vars (s.owner, x) (.int (crc16 data).toNat), agenda := rest } := by
  rw [crcSeqLines, List.cons_append, List.append_assoc] at hagenda
  have hinit := step_issueLine_of_owner hagenda (resultOf_crcInit hc s.acc)
  rw [crc16_eq_crc16From, runSteps_succ_of_step (data.length + 1) hinit,
    runSteps_updateLines (s := s.afterOwnerLine _ _ _ _) data 1 hc rfl rfl rfl]
  exact runSteps_readLine hc rfl

/-- Settles O49: the run of CRC.SEQ's lines. -/
theorem crcSeqComputesCrc16 : Obligations.CrcSeqComputesCrc16 := by
  refine ⟨fun s h data x rest hc howner hagenda => ?run, fun data => rfl, fun h x => rfl, by decide⟩
  subst howner
  exact ⟨_, runSteps_crcSeqLines hc hagenda, rfl, lookupVar_bindVar_self .., rfl⟩

end Sys2Proof.Machine

namespace Sys2Proof.Machine

/-! ### The CRC functions step by step (R46 to R48) -/

theorem crcBitstep_of_bit0_set {c : Word16} (h : c.getLsbD 0 = true) : crcBitstep c = (c >>> 1) ^^^ POLY := if_pos h

theorem crcBitstep_of_bit0_clear {c : Word16} (h : c.getLsbD 0 = false) : crcBitstep c = c >>> 1 :=
  if_neg (ne_true_of_eq_false h)

/-- Settles O1: the two branches of the definition, with POLY at its value. -/
theorem crcBitstepShiftsThenXorsPoly : Obligations.CrcBitstepShiftsThenXorsPoly :=
  fun _ => ⟨crcBitstep_of_bit0_set, crcBitstep_of_bit0_clear⟩

/-- A byte has no bits from bit 8 on, so merging it leaves those of the register. -/
theorem getLsbD_merge_of_le (c : Word16) (b : Byte) {k : Nat} (hk : 8 ≤ k) :
    (c ^^^ b.setWidth 16).getLsbD k = c.getLsbD k := by
  have hbyte : b.getLsbD k = false := BitVec.getLsbD_of_ge b k hk
  rw [BitVec.getLsbD_xor, BitVec.getLsbD_setWidth, hbyte, Bool.and_false, Bool.xor_false]

/-- Settles O2: the eight steps are the recursion of `crcBitsteps` written out. -/
theorem crcByteMergesThenTakesEightSteps : Obligations.CrcByteMergesThenTakesEightSteps :=
  fun c b => ⟨rfl, fun _ => getLsbD_merge_of_le c b⟩

/-- A further byte is folded into the checksum of the bytes before it. -/
theorem crc16_append_singleton (data : Bytes) (b : Byte) : crc16 (data ++ [b]) = crcByte (crc16 data) b := by
  rw [crc16_eq_crc16From, crc16_eq_crc16From, crc16From_append, crc16From_cons, crc16From_nil]

/-- Settles O3: the final XOR with XOROUT changes nothing. -/
theorem crc16FoldsBytesFromInit : Obligations.Crc16FoldsBytesFromInit :=
  ⟨crc16_eq_crc16From [], crc16_append_singleton, crc16_eq_crc16From⟩

/-! ### Byte operands out of range (R75) -/

theorem asByte_of_out_of_range {n : Int} (h : n < 0 ∨ 255 < n) : asByte n = .error .byteOutOfRange :=
  if_neg (by omega)

theorem asByte_of_in_range {n : Int} (h : ¬(n < 0 ∨ 255 < n)) : asByte n = .ok (BitVec.ofNat 8 n.toNat) :=
  if_pos (by omega)

/-- The first element out of range ends the reading of a list, and those before it do not. -/
theorem asBytes_of_mem_out_of_range {l : List Int} (h : ∃ n ∈ l, n < 0 ∨ 255 < n) :
    asBytes l = .error .byteOutOfRange := by
  induction l with
  | nil => simp at h
  | cons m l ih =>
    by_cases hm : m < 0 ∨ 255 < m
    · rw [asBytes, asByte_of_out_of_range hm]
      rfl
    · have hl : ∃ n ∈ l, n < 0 ∨ 255 < n := by simpa [hm] using h
      rw [asBytes, asByte_of_in_range hm, ih hl]
      rfl

theorem decode_crc16_of_mem_out_of_range {l : List Int} (h : ∃ n ∈ l, n < 0 ∨ 255 < n) :
    decode ⟨0x01, [.bytes l]⟩ = .error .byteOutOfRange := by
  have hdecode : decode ⟨0x01, [.bytes l]⟩ = (do let data ← asBytes l; pure (.crc16 data)) := rfl
  rw [hdecode, asBytes_of_mem_out_of_range h]
  rfl

theorem decode_crcUpdate_of_out_of_range {n : Int} (h : n < 0 ∨ 255 < n) :
    decode ⟨0x03, [.int n]⟩ = .error .byteOutOfRange := by
  have hdecode : decode ⟨0x03, [.int n]⟩ = (do let b ← asByte n; pure (.crcUpdate b)) := rfl
  rw [hdecode, asByte_of_out_of_range h]
  rfl

/-! ### The operations of the CRC engine (R49 to R52)

What an operation answers is `resultOf`, and what it writes is `accAfter` and that answer: `exec_eq_next` turns the one into
the other. -/

section
variable {s : State} (hc : admittedConfig s.cfg = true)
include hc

theorem exec_crc16_of_length_le {data : Bytes} (hlen : data.length ≤ s.cfg.maxFrameLen) :
    exec (.crc16 data) s = .next { s with result := .u16 (crc16 data) } := by
  refine exec_eq_next.2 ⟨.u16 (crc16 data), ?_, rfl⟩
  rw [resultOf, hc, checkLength, decide_eq_true hlen]
  rfl

theorem exec_crc16_of_lt_length {data : Bytes} (hlen : s.cfg.maxFrameLen < data.length) :
    exec (.crc16 data) s = .refused .operandTooLong := by
  refine exec_eq_refused.2 ?_
  rw [resultOf, hc, checkLength, decide_eq_false (Nat.not_le_of_lt hlen)]
  rfl

end

/-- Settles O19: the length check decides between the checksum and a refusal; the values are computed. -/
theorem crc16ReturnsChecksumOfData : Obligations.Crc16ReturnsChecksumOfData :=
  ⟨fun _ _ hc => exec_crc16_of_length_le hc, fun _ _ hc => exec_crc16_of_lt_length hc, fun data => decode_encode (.crc16 data),
    fun _ => decode_crc16_of_mem_out_of_range, by decide, by decide,
    by decide +kernel⟩

/-- An operation issued by ACC's owner passes the check of ownership: it ends as `resultOf` says for the owner. -/
theorem exec_of_owner {i : Instr} {s : State} {r : Result} (howner : s.issuer = s.owner)
    (hr : resultOf i s.cfg true s.acc = .ok r) : exec i s = .next { s with acc := accAfter i s.acc, result := r } := by
  have hcheck : (s.issuer == s.owner) = true := beq_iff_eq.2 howner
  exact exec_eq_next.2 ⟨r, by rw [hcheck, hr], rfl⟩

section
variable {s : State} (hc : admittedConfig s.cfg = true) (howner : s.issuer = s.owner)
include hc howner

theorem exec_crcInit_of_owner : exec .crcInit s = .next { s with acc := INIT, result := .nothing } :=
  exec_of_owner howner (resultOf_crcInit hc s.acc)

theorem exec_crcUpdate_of_owner (b : Byte) :
    exec (.crcUpdate b) s = .next { s with acc := crcByte s.acc b, result := .nothing } :=
  exec_of_owner howner (resultOf_crcUpdate hc s.acc b)

theorem exec_crcRead_of_owner : exec .crcRead s = .next { s with result := .u16 s.acc } :=
  exec_of_owner howner (resultOf_crcRead hc s.acc)

end

/-- Settles O20: CRC.INIT writes INIT whatever ACC held, so also over INIT itself. -/
theorem crcInitSetsAccToInit : Obligations.CrcInitSetsAccToInit :=
  ⟨fun _ hc howner => ⟨exec_crcInit_of_owner hc howner, exec_crcInit_of_owner hc howner⟩, decode_encode .crcInit, resetWith_acc⟩

/-- Settles O21: CRC.UPDATE folds its byte into what ACC holds; the values are computed. -/
theorem crcUpdateFoldsOneByteIntoAcc : Obligations.CrcUpdateFoldsOneByteIntoAcc :=
  ⟨fun _ b hc howner => exec_crcUpdate_of_owner hc howner b, fun b => decode_encode (.crcUpdate b),
    fun _ => decode_crcUpdate_of_out_of_range, by decide, by decide, by decide, by decide⟩

theorem execAll_cons_of_exec {i : Instr} {is : List Instr} {s t : State} (h : exec i s = .next t) :
    execAll (i :: is) s = execAll is t := by
  rw [execAll, h]

/-- CRC.UPDATEs issued by ACC's owner fold their bytes into ACC. The result is then what every CRC.UPDATE leaves, so nothing else
moves. -/
theorem execAll_updates_of_owner (data : Bytes) {s : State} (rest : List Instr) (hc : admittedConfig s.cfg = true)
    (howner : s.issuer = s.owner) (hresult : s.result = .nothing) :
    execAll (data.map Instr.crcUpdate ++ rest) s = execAll rest { s with acc := crc16From s.acc data } := by
  induction data generalizing s with
  | nil => rfl
  | cons b data ih =>
    rw [List.map_cons, List.cons_append, execAll_cons_of_exec (exec_crcUpdate_of_owner hc howner b),
      ih (s := { s with acc := crcByte s.acc b, result := .nothing }) hc howner rfl, ← hresult]
    rfl

/-- CRC.INIT, a CRC.UPDATE for each byte and CRC.READ, issued by ACC's owner, return the checksum of the bytes. -/
theorem execAll_crcSeq_of_owner {s : State} (hc : admittedConfig s.cfg = true) (howner : s.issuer = s.owner) (data : Bytes) :
    execAll (crcSeq data) s = .next { s with acc := crc16 data, result := .u16 (crc16 data) } := by
  rw [crcSeq, execAll_cons_of_exec (exec_crcInit_of_owner hc howner),
    execAll_updates_of_owner (s := { s with acc := INIT, result := .nothing }) data [.crcRead] hc howner rfl,
    execAll_cons_of_exec (exec_crcRead_of_owner (s := { s with acc := crc16From INIT data, result := .nothing }) hc howner),
    crc16_eq_crc16From]
  rfl

/-- Settles O22: the two sequences are those of `crcSeq` for no bytes and for the bytes 1 and 2. -/
theorem crcReadReturnsAccUnchanged : Obligations.CrcReadReturnsAccUnchanged := by
  have hcrc : crc16 [0x01, 0x02] = 0xE181#16 := by decide +kernel
  refine ⟨fun s hc howner => ⟨exec_crcRead_of_owner hc howner, exec_crcRead_of_owner hc howner⟩, decode_encode .crcRead,
    fun c o hc => exec_crcRead_of_owner hc rfl, fun s hc howner => execAll_crcSeq_of_owner hc howner [],
    fun s hc howner => ?twoBytes⟩
  case twoBytes =>
    rw [← hcrc]
    exact execAll_crcSeq_of_owner hc howner [0x01, 0x02]

end Sys2Proof.Machine

namespace Sys2Proof.Machine

/-! ### The unframe checks (R57 to R61)

`unframeChecks_cases` says everything the checks can answer. Read off from it: when each error is reported, and that past the
length and the start byte the CRC field decides. -/

section
variable {raw : Bytes} {minlen : Nat} (hmin : 4 ≤ minlen)
include hmin

theorem unframeChecks_eq_frameTooShort_iff :
    unframeChecks raw minlen = .ok (.err .frameTooShort) ↔ raw.length < minlen := by
  obtain ⟨hshort, hans⟩ | ⟨hlen, -, hans⟩ | ⟨hlen, -, _, -, ⟨-, hans⟩ | ⟨-, hans⟩⟩ := unframeChecks_cases raw minlen hmin
  · simp [hans, hshort]
  all_goals simp [hans, hlen]

theorem unframeChecks_eq_badStartByte_iff :
    unframeChecks raw minlen = .ok (.err .badStartByte) ↔ minlen ≤ raw.length ∧ raw.head? ≠ some START := by
  obtain ⟨hshort, hans⟩ | ⟨hlen, hbad, hans⟩ | ⟨-, hstart, _, -, ⟨-, hans⟩ | ⟨-, hans⟩⟩ := unframeChecks_cases raw minlen hmin
  · simp [hans, hshort]
  · simp [hans, hlen, hbad]
  all_goals simp [hans, hstart]

/-- On a buffer that is long enough and starts with the marker, the CRC field decides between the payload region and a
mismatch. -/
theorem unframeChecks_of_crc_field {rx : Word16} (hlen : minlen ≤ raw.length) (hstart : raw.head? = some START)
    (hrx : rdU16LE raw (raw.length - 3) = .ok rx) :
    unframeChecks raw minlen = .ok (if crc16 ((raw.drop 1).take (raw.length - 4)) = rx
      then .ok ((raw.drop 1).take (raw.length - 4)) else .err .checksumMismatch) := by
  rw [← slice_payload_region]
  obtain ⟨hshort, -⟩ | ⟨-, hbad, -⟩ | ⟨-, -, rx', hrx', hcrc⟩ := unframeChecks_cases raw minlen hmin
  · omega
  · exact absurd hstart hbad
  · obtain rfl : rx = rx' := Except.ok.inj (hrx.symm.trans hrx')
    obtain ⟨hne, hans⟩ | ⟨heq, hans⟩ := hcrc
    · rw [hans, if_neg hne]
    · rw [hans, if_pos heq]

/-- An `Ok` payload is the payload region. -/
theorem unframeChecks_ok_payload {p : Bytes} (h : unframeChecks raw minlen = .ok (.ok p)) :
    p = (raw.drop 1).take (raw.length - 4) := by
  rw [← slice_payload_region]
  obtain ⟨-, hans⟩ | ⟨-, -, hans⟩ | ⟨-, -, _, -, ⟨-, hans⟩ | ⟨-, hans⟩⟩ := unframeChecks_cases raw minlen hmin <;>
    simp [hans] at h
  exact h.symm

end

/-- The received CRC is the bytes at `n - 3` and `n - 2`, low byte first. -/
theorem rdU16LE_crc_field {raw : Bytes} {lo hi : Byte} (hlen : 4 ≤ raw.length) (hlo : raw[raw.length - 3]? = some lo)
    (hhi : raw[raw.length - 2]? = some hi) : rdU16LE raw (raw.length - 3) = .ok (hi ++ lo) := by
  have hnext : raw.length - 2 = raw.length - 3 + 1 := by omega
  rw [rdU16LE_of_bytes hlo (hnext ▸ hhi), low_or_high_eq_append]

/-- Settles O24: one clause for each way the checks end. -/
theorem unframeChecksRunInOrder : Obligations.UnframeChecksRunInOrder := by
  refine fun raw minlen hmin => ⟨(unframeChecks_eq_frameTooShort_iff hmin).2,
    fun hlen hbad => (unframeChecks_eq_badStartByte_iff hmin).2 ⟨hlen, hbad⟩, fun lo hi hlen hstart hlo hhi => ?crc⟩
  case crc =>
    have hans := unframeChecks_of_crc_field hmin hlen hstart (rdU16LE_crc_field (hmin.trans hlen) hlo hhi)
    exact ⟨fun hne => by rw [hans, if_neg hne], fun heq => by rw [hans, if_pos heq]⟩

/-- Settles O27: the region leaves out the start byte, the two CRC bytes and the end byte. -/
theorem crcCheckCoversThePayloadRegion : Obligations.CrcCheckCoversThePayloadRegion := by
  intro raw minlen lo hi hmin hlen hstart hlo hhi
  rw [← List.head?_eq_getElem?] at hstart
  refine ⟨?length, unframeChecks_eq_mismatch_iff hmin hlen hstart (rdU16LE_crc_field (hmin.trans hlen) hlo hhi)⟩
  case length =>
    rw [List.length_take, List.length_drop]
    omega

/-! The end byte: with `body ++ [last]` for the buffer, each thing the checks look at stands in `body`. -/

theorem rdU16LE_append_left {l : Bytes} (m : Bytes) {off : Nat} (h : off + 2 ≤ l.length) :
    rdU16LE (l ++ m) off = rdU16LE l off := by
  obtain ⟨v, hv⟩ := rdU16LE_ok l off h
  obtain ⟨b0, b1, rest, hdrop, hval⟩ := rdU16LE_eq_ok.1 hv
  rw [hv]
  exact rdU16LE_eq_ok.2 ⟨b0, b1, rest ++ m, by rw [List.drop_append_of_le_length (by omega), hdrop]; rfl, hval⟩

theorem payload_region_append_singleton {body : Bytes} (last : Byte) (h : 3 ≤ body.length) :
    ((body ++ [last]).drop 1).take ((body ++ [last]).length - 4) = (body.drop 1).take (body.length - 3) := by
  have hlen : (body ++ [last]).length - 4 = body.length - 3 := by simp
  rw [hlen, List.drop_append_of_le_length (by omega), List.take_append_of_le_length (by rw [List.length_drop]; omega)]

theorem head?_append_singleton {body : Bytes} (last : Byte) (h : 3 ≤ body.length) :
    (body ++ [last]).head? = body.head? :=
  List.head?_append_of_ne_nil _ (List.ne_nil_of_length_pos (by omega))

section
variable {body : Bytes} {minlen : Nat} (hmin : 4 ≤ minlen)
include hmin

/-- Past the length and the start byte, the bytes before the end byte decide. -/
theorem unframeChecks_append_singleton_of_start {rx : Word16} (last : Byte) (hlen : minlen ≤ body.length + 1)
    (hstart : body.head? = some START) (hrx : rdU16LE body (body.length - 2) = .ok rx) :
    unframeChecks (body ++ [last]) minlen = .ok (if crc16 ((body.drop 1).take (body.length - 3)) = rx
      then .ok ((body.drop 1).take (body.length - 3)) else .err .checksumMismatch) := by
  have hbody : 3 ≤ body.length := by omega
  have hoff : (body ++ [last]).length - 3 = body.length - 2 := by simp
  rw [← payload_region_append_singleton last hbody]
  refine unframeChecks_of_crc_field hmin (by simpa using hlen) ?_ ?_
  · rw [head?_append_singleton last hbody, hstart]
  · rw [hoff, rdU16LE_append_left _ (by omega), hrx]

theorem unframeChecks_append_singleton_congr (last last' : Byte) :
    unframeChecks (body ++ [last]) minlen = unframeChecks (body ++ [last']) minlen := by
  by_cases hlen : minlen ≤ body.length + 1
  · have hbody : 3 ≤ body.length := by omega
    by_cases hstart : body.head? = some START
    · obtain ⟨rx, hrx⟩ := rdU16LE_ok body (body.length - 2) (by omega)
      rw [unframeChecks_append_singleton_of_start hmin last hlen hstart hrx,
        unframeChecks_append_singleton_of_start hmin last' hlen hstart hrx]
    · have hbad (x : Byte) : unframeChecks (body ++ [x]) minlen = .ok (.err .badStartByte) :=
        (unframeChecks_eq_badStartByte_iff hmin).2 ⟨by simpa using hlen, by rwa [head?_append_singleton x hbody]⟩
      rw [hbad, hbad]
  · have hshort (x : Byte) : unframeChecks (body ++ [x]) minlen = .ok (.err .frameTooShort) :=
      (unframeChecks_eq_frameTooShort_iff hmin).2 (by simpa using hlen)
    rw [hshort, hshort]

end

/-- Settles O28: what the checks look at stands before the end byte. -/
theorem endByteIsNotChecked : Obligations.EndByteIsNotChecked := by
  refine fun body minlen hmin => ⟨unframeChecks_append_singleton_congr hmin, fun lo hi last hlen hstart hlo hhi hcrc => ?passes,
    fun p last h => ?payload⟩
  case passes =>
    have hnext : body.length - 1 = body.length - 2 + 1 := by omega
    have hrx : rdU16LE body (body.length - 2) = .ok (hi ++ lo) := by
      rw [rdU16LE_of_bytes hlo (hnext ▸ hhi), low_or_high_eq_append]
    rw [unframeChecks_append_singleton_of_start hmin last hlen hstart hrx, if_pos hcrc]
  case payload =>
    have hlen := (unframeChecks_ok_length hmin h).1
    rw [List.length_append, List.length_singleton] at hlen
    rw [← payload_region_append_singleton last (by omega)]
    exact unframeChecks_ok_payload hmin h

/-! ### Pure operations

A pure operation that answers changes its result alone, so what it answers is the whole of what it does. -/

section
variable {i : Instr} {s : State} (hi : i.usesAcc = false)
include hi

theorem exec_eq_next_of_pure {t : State} :
    exec i s = .next t ↔ ∃ r, resultOf i s.cfg (s.issuer == s.owner) s.acc = .ok r ∧ t = { s with result := r } := by
  rw [exec_eq_next, accAfter_of_pure hi]
  rfl

/-- Two pure operations that hand over one result leave one state. -/
theorem exec_next_unique_of_pure {j : Instr} {t u : State} (hj : j.usesAcc = false) (ht : exec i s = .next t)
    (hu : exec j s = .next u) (hresult : t.result = u.result) : t = u := by
  obtain ⟨r, -, rfl⟩ := (exec_eq_next_of_pure hi).1 ht
  obtain ⟨r', -, rfl⟩ := (exec_eq_next_of_pure hj).1 hu
  obtain rfl : r = r' := hresult
  rfl

end

/-- Settles O34: the error code is the whole result, and the result is all that changes. -/
theorem errorResultsRevealNothingOfTheFrame : Obligations.ErrorResultsRevealNothingOfTheFrame :=
  ⟨fun _ _ _ _ _ _ ht hte hu hue => exec_next_unique_of_pure rfl rfl ht hu (hte.trans hue.symm),
    fun _ _ _ _ _ _ _ _ _ _ ht hte hu hue => exec_next_unique_of_pure rfl rfl ht hu (hte.trans hue.symm)⟩

/-! ### What the codec's operations answer (R56, R62 to R64)

Each of them checks the configuration and the length of its byte list first, so `finish_checks_of_lt_length` is the refusal of
each of them. Once these two checks are past, an operation's function gives the result, and the result is handed over. -/

theorem checkLength_of_le {l : Bytes} {n : Nat} (h : l.length ≤ n) : checkLength l n = .ok () := checkLength_eq_ok.2 h

theorem checkLength_of_lt {l : Bytes} {n : Nat} (h : n < l.length) : checkLength l n = .error .operandTooLong :=
  require_eq_error.2 ⟨decide_eq_false (Nat.not_le_of_lt h), rfl⟩

/-- Handing over a function's value as the result: the operation answers as the function does. -/
theorem finish_handResult_eq_next_iff {α : Type} {x : Checked α} {f : α → Result} (hf : Function.Injective f) {s : State}
    {a : α} : finish (do let v ← x; pure (s.handResult (f v))) = .next { s with result := f a } ↔ x = .ok a := by
  rw [finish_eq_next, checked_bind_eq_ok]
  constructor
  · rintro ⟨v, hv, hstate⟩
    obtain rfl : v = a := hf (congrArg State.result (Except.ok.inj hstate))
    exact hv
  · exact fun ha => ⟨a, ha, rfl⟩

section
variable {s : State} (hc : admittedConfig s.cfg = true) {l : Bytes} {bound : Nat}
include hc

theorem finish_checks_of_length_le (k : Checked State) (hlen : l.length ≤ bound) :
    finish (do checkConfig s; checkLength l bound; k) = finish k := by
  rw [checkConfig, hc, checkLength_of_le hlen]
  rfl

theorem finish_checks_of_lt_length (k : Checked State) (hlen : bound < l.length) :
    finish (do checkConfig s; checkLength l bound; k) = .refused .operandTooLong := by
  rw [checkConfig, hc, checkLength_of_lt hlen]
  rfl

end

section
variable {s : State} (hc : admittedConfig s.cfg = true)
include hc

theorem exec_encodeFrame_of_length_le {p : Bytes} (hlen : p.length ≤ maxPayloadLen s.cfg) :
    exec (.encodeFrame p) s = .next { s with result := .frame (frameOf p) } :=
  finish_checks_of_length_le hc _ hlen

theorem exec_unframe_eq_next_iff {raw : Bytes} {r : CodecResult Bytes} (hlen : raw.length ≤ s.cfg.maxFrameLen) :
    exec (.unframe raw) s = .next { s with result := .unframed r } ↔ unframeChecks raw s.cfg.frameMinLen = .ok r := by
  rw [← finish_handResult_eq_next_iff (fun _ _ => Result.unframed.inj), ← finish_checks_of_length_le hc _ hlen]
  rfl

theorem exec_project_eq_next_iff {p : Bytes} {oT oR : Word32} {f : TelemetryFields} (hlen : p.length ≤ maxPayloadLen s.cfg) :
    exec (.project p oT oR) s = .next { s with result := .fields f } ↔ projectFields p oT oR = .ok f := by
  rw [← finish_handResult_eq_next_iff (fun _ _ => Result.fields.inj), ← finish_checks_of_length_le hc _ hlen]
  rfl

theorem exec_decodeFrame_eq_next_iff {raw : Bytes} {oT oR : Word32} {r : CodecResult TelemetryFields}
    (hlen : raw.length ≤ s.cfg.maxFrameLen) :
    exec (.decodeFrame raw oT oR) s = .next { s with result := .decoded r } ↔
      decodeTelemetry raw s.cfg.tlmMinLen oT oR = .ok r := by
  rw [← finish_handResult_eq_next_iff (fun _ _ => Result.decoded.inj), ← finish_checks_of_length_le hc _ hlen]
  rfl

end

/-- DECODE reports the errors of the checks and no other. -/
theorem decodeTelemetry_eq_err_iff {raw : Bytes} {minlen : Nat} {oT oR : Word32} {e : CodecError} :
    decodeTelemetry raw minlen oT oR = .ok (.err e) ↔ unframeChecks raw minlen = .ok (.err e) := by
  simp [decodeTelemetry_eq_ok]

theorem four_le_frameMinLen {c : Config} (hc : admittedConfig c = true) : 4 ≤ c.frameMinLen := (admittedConfig_iff.1 hc).1

theorem eighteen_le_tlmMinLen {c : Config} (hc : admittedConfig c = true) : 18 ≤ c.tlmMinLen := by
  obtain ⟨-, htlm, -⟩ := admittedConfig_iff.1 hc
  omega

theorem four_le_tlmMinLen {c : Config} (hc : admittedConfig c = true) : 4 ≤ c.tlmMinLen :=
  Nat.le_trans (by decide) (eighteen_le_tlmMinLen hc)

/-- A payload as long as an admitted configuration allows has room for both angles. -/
theorem fourteen_le_maxPayloadLen {c : Config} (hc : admittedConfig c = true) : 14 ≤ maxPayloadLen c := by
  obtain ⟨-, htlm, hmax⟩ := admittedConfig_iff.1 hc
  have hframe : 18 ≤ c.maxFrameLen := by omega
  exact Nat.sub_le_sub_right hframe OVERHEAD

/-- Settles O23: the length check decides between the frame and a refusal; the two frames are computed. -/
theorem encodeReturnsTheFrame : Obligations.EncodeReturnsTheFrame :=
  ⟨fun _ _ hc => exec_encodeFrame_of_length_le hc, fun _ _ hc => finish_checks_of_lt_length hc _,
    fun p => decode_encode (.encodeFrame p), frameOf_length, by decide, by decide +kernel⟩

/-- Settles O25: both operations report what the checks report, each at its own minimum. -/
theorem lengthCheckUsesEachOperationsMinimum : Obligations.LengthCheckUsesEachOperationsMinimum := by
  intro s raw oT oR hc hlen
  rw [exec_unframe_eq_next_iff hc hlen, exec_decodeFrame_eq_next_iff hc hlen, decodeTelemetry_eq_err_iff]
  exact ⟨unframeChecks_eq_frameTooShort_iff (four_le_frameMinLen hc), unframeChecks_eq_frameTooShort_iff (four_le_tlmMinLen hc)⟩

/-- Settles O26: both operations report what the checks report, each at its own minimum. -/
theorem startByteCheckFollowsLengthCheck : Obligations.StartByteCheckFollowsLengthCheck := by
  intro s raw oT oR hc hlen
  rw [exec_unframe_eq_next_iff hc hlen, exec_decodeFrame_eq_next_iff hc hlen, decodeTelemetry_eq_err_iff,
    ← List.head?_eq_getElem?]
  exact ⟨unframeChecks_eq_badStartByte_iff (four_le_frameMinLen hc), unframeChecks_eq_badStartByte_iff (four_le_tlmMinLen hc)⟩

/-- Settles O29: at an admitted minimum the checks always answer; the two payloads are computed. -/
theorem unframeReturnsTheOutcomeOfTheChecks : Obligations.UnframeReturnsTheOutcomeOfTheChecks := by
  refine ⟨fun s raw hc hlen => ?answers, fun _ _ hc => finish_checks_of_lt_length hc _, fun raw => decode_encode (.unframe raw),
    by decide, fun raw hlen => (unframeChecks_eq_frameTooShort_iff (Nat.le_refl 4)).2 (by omega), by decide +kernel⟩
  case answers =>
    obtain ⟨r, hr⟩ := unframeChecks_answers raw s.cfg.frameMinLen (four_le_frameMinLen hc)
    exact ⟨r, hr, (exec_unframe_eq_next_iff hc hlen).2 hr⟩

/-! ### Origins out of range (R75) -/

theorem asOrigin_of_out_of_range {n : Int} (h : n < 0 ∨ 4294967295 < n) : asOrigin n = .error .originOutOfRange :=
  if_neg (by omega)

/-- Of two origins read one after the other, one out of range ends the reading. -/
theorem asOrigin_bind_of_out_of_range {α : Type} {nT nR : Int} (f : Word32 → Word32 → Except DecodeError α)
    (h : (nT < 0 ∨ 4294967295 < nT) ∨ (nR < 0 ∨ 4294967295 < nR)) :
    (do let oT ← asOrigin nT; let oR ← asOrigin nR; f oT oR) = .error .originOutOfRange := by
  by_cases hT : nT < 0 ∨ 4294967295 < nT
  · rw [asOrigin_of_out_of_range hT]
    rfl
  · have hinRange : asOrigin nT = .ok (BitVec.ofNat 32 nT.toNat) := if_pos (by omega)
    rw [hinRange, asOrigin_of_out_of_range (h.resolve_left hT)]
    rfl

theorem decode_project_of_origin_out_of_range (p : Bytes) {nT nR : Int}
    (h : (nT < 0 ∨ 4294967295 < nT) ∨ (nR < 0 ∨ 4294967295 < nR)) :
    decode ⟨0x12, [bytesValue p, .int nT, .int nR]⟩ = .error .originOutOfRange := by
  have hdecode : decode ⟨0x12, [bytesValue p, .int nT, .int nR]⟩ =
      (do let payload ← asBytes (p.map fun b => (b.toNat : Int))
          let oT ← asOrigin nT
          let oR ← asOrigin nR
          pure (.project payload oT oR)) := rfl
  rw [hdecode, asBytes_map_toNat]
  exact asOrigin_bind_of_out_of_range _ h

/-! ### Projection and rotations (R63, R65) -/

theorem projectFields_of_length_lt {p : Bytes} {oT oR : Word32} (h : p.length < 14) :
    projectFields p oT oR = .error .payloadTooShortForTelemetry := by
  rw [projectFields, decide_eq_false (Nat.not_le_of_lt h)]
  rfl

theorem angleRotation_self (o : Word32) : angleRotation o o = 0 := Int.sub_self _

/-- Settles O30: both angles stand within a payload of 14 bytes, and every admitted bound lies above that length. -/
theorem projectReadsTheTwoAngles : Obligations.ProjectReadsTheTwoAngles := by
  refine ⟨fun s p oT oR hc hangles hlen => ?fields, fun s p oT oR hc hshort => ?short,
    fun _ _ _ _ hc => finish_checks_of_lt_length hc _, fun p oT oR => decode_encode (.project p oT oR),
    fun p _ _ => decode_project_of_origin_out_of_range p, by decide, by decide, angleRotation_self⟩
  case fields =>
    obtain ⟨f, hf⟩ := projectFields_ok p oT oR hangles
    obtain ⟨-, rawT, rawR, hT, hR, rfl⟩ := projectFields_eq_ok.1 hf
    exact ⟨rawT, rawR, hT, hR, (exec_project_eq_next_iff hc hlen).2 hf⟩
  case short =>
    have hlen : p.length ≤ maxPayloadLen s.cfg := hshort.le.trans (fourteen_le_maxPayloadLen hc)
    have hexec : exec (.project p oT oR) s = finish (do let f ← projectFields p oT oR; pure (s.handResult (.fields f))) :=
      finish_checks_of_length_le hc _ hlen
    rw [hexec, projectFields_of_length_lt hshort]
    rfl

/-- A rotation lies within the range of 33-bit two's complement, so its field holds it exactly. -/
theorem rotationBits_toInt (raw o : Word32) : (rotationBits (angleRotation raw o)).toInt = angleRotation raw o := by
  obtain ⟨hlow, hhigh⟩ := rotation_bounds raw o
  exact BitVec.toInt_ofInt_eq_self (by decide) (by omega) (by omega)

theorem degrees_mul_scale (rot : Int) : degrees rot * 100 = (rot : Rat) :=
  div_mul_cancel₀ _ (by decide)

/-- Settles O32: the range is within 33 bits, and a hundred times the degrees is the rotation. -/
theorem rotationIsExactAndFits33Bits : Obligations.RotationIsExactAndFits33Bits := by
  refine ⟨fun raw o => ?exact, degrees_mul_scale, by decide +kernel, by decide +kernel⟩
  case exact =>
    obtain ⟨hlow, hhigh⟩ := rotation_bounds raw o
    exact ⟨rfl, hlow, hhigh, rotationBits_toInt raw o⟩

end Sys2Proof.Machine

namespace Sys2Proof.Machine

/-! ### Errors as results (R72)

An error that UNFRAME or DECODE reports is handed over like any result, and nothing else is written. -/

/-- No operation reads the last result: `accAfter` and `resultOf` do not take it. -/
theorem exec_with_result (i : Instr) (s : State) (r : Result) : exec i { s with result := r } = exec i s := by
  rw [exec_eq_finish, exec_eq_finish]
  rfl

/-- Settles O41: the error is the answer of the checks, and the result it is handed over in is read by no operation. That no
operation faults holds because the block has no faults (R72): the type of them is empty. -/
theorem errorIsAResultNotATrap : Obligations.ErrorIsAResultNotATrap := by
  refine ⟨fun raw s t e h hresult => ?unframe, fun raw oT oR s t e h hresult => ?decode, fun _ _ f => nomatch f⟩
  case unframe =>
    obtain ⟨-, -, r, hchecks, rfl⟩ := execUnframe_next h
    obtain rfl : r = .err e := Result.unframed.inj hresult
    exact ⟨rfl, hchecks, fun j => exec_with_result j s _⟩
  case decode =>
    obtain ⟨-, -, r, hdecode, rfl⟩ := execDecode_next h
    obtain rfl : r = .err e := Result.decoded.inj hresult
    exact ⟨rfl, decodeTelemetry_eq_err_iff.1 hdecode, fun j => exec_with_result j s _⟩

/-! ### Ownership of ACC (R79) -/

/-- Under an admitted configuration, the check of ownership is the only one an ACC operation has left, and it fails for a host
that does not own ACC. -/
theorem resultOf_of_not_owned {i : Instr} {c : Config} (hc : admittedConfig c = true) (hi : i.usesAcc = true) (acc : Word16) :
    resultOf i c false acc = .error .concurrentAccUse := by
  cases i with
  | crcInit | crcUpdate _ | crcRead =>
    rw [resultOf, hc]
    rfl
  | _ => cases hi

/-- Settles O45: the answer of a pure operation takes neither the ownership nor ACC, and an ACC operation checks the ownership. -/
theorem accBelongsToItsOwner : Obligations.AccBelongsToItsOwner := by
  refine ⟨fun i s t issuer owner a hi h => ?pure, fun i s hc hi hother => ?refused⟩
  case pure =>
    obtain ⟨r, hr, rfl⟩ := (exec_eq_next_of_pure hi).1 h
    exact (exec_eq_next_of_pure hi).2 ⟨r, (resultOf_of_pure hi ..).trans hr, rfl⟩
  case refused =>
    rw [exec_eq_refused, beq_false_of_ne hother]
    exact resultOf_of_not_owned hc hi s.acc

end Sys2Proof.Machine

namespace Sys2Proof.Machine

/-! ### One act and one step, by cases (R13, R43, R82) -/

theorem step_of_agenda_cons {s : State} {a : Act} {rest : List Act} (h : s.agenda = a :: rest) :
    step s = runAct a { s with agenda := rest } := by
  rw [step, nextAct, h]

/-- A line whose operands have values is carried out as a request of these values. -/
theorem step_issue_of_operands {s : State} {h : HostId} {sel : BitVec 8} {es : List Expr} {b : Bind} {rest : List Act}
    {vs : List Value} (hagenda : s.agenda = .issue h sel es b :: rest) (hvs : evalOperands s.vars h es = some vs) :
    step s = bindOutcome h b (runRequest h ⟨sel, vs⟩ { s with agenda := rest }) := by
  rw [step_of_agenda_cons hagenda, runAct, hvs]

theorem step_issue_of_no_operands {s : State} {h : HostId} {sel : BitVec 8} {es : List Expr} {b : Bind} {rest : List Act}
    (hagenda : s.agenda = .issue h sel es b :: rest) (hvs : evalOperands s.vars h es = none) :
    step s = .refused .undefinedHostExpression := by
  rw [step_of_agenda_cons hagenda, runAct, hvs]

theorem runRequest_of_decode {r : Request} {i : Instr} (hi : decode r = .ok i) (h : HostId) (s : State) :
    runRequest h r s = exec i { s with issuer := h } := by
  rw [runRequest, hi]

theorem runAct_hostStep_of_value {s : State} {h : HostId} {x : VarName} {e : Expr} {v : Value}
    (hv : evalExpr s.vars h e = some v) : runAct (.hostStep h x e) s = .next { s with vars := bindVar s.vars (h, x) v } := by
  rw [runAct, hv]

/-- A HOST step that is not refused binds its variable and does nothing else. -/
theorem runAct_hostStep_next {h : HostId} {x : VarName} {e : Expr} {s t : State}
    (hr : runAct (.hostStep h x e) s = .next t) : ∃ v, t = { s with vars := bindVar s.vars (h, x) v } := by
  cases hv : evalExpr s.vars h e with
  | none => rw [runAct, hv] at hr; cases hr
  | some v =>
    rw [runAct_hostStep_of_value hv] at hr
    cases hr
    exact ⟨v, rfl⟩

/-- What an operation leaves as it was: everything but ACC and the result. -/
theorem exec_next_frame {i : Instr} {s t : State} (h : exec i s = .next t) :
    t = { s with acc := t.acc, result := t.result } := by
  obtain ⟨r, -, rfl⟩ := exec_eq_next.1 h
  rfl

/-- No act changes the configuration, and none puts anything on the agenda or takes anything off it. -/
theorem runAct_next_cfg_agenda {a : Act} {s t : State} (h : runAct a s = .next t) :
    t.cfg = s.cfg ∧ t.agenda = s.agenda := by
  cases a with
  | issue host sel es b =>
    obtain ⟨vs, i, u, -, -, hexec, rfl⟩ := runAct_issue_next h
    rw [exec_next_frame hexec]
    exact ⟨rfl, rfl⟩
  | hostStep host x e =>
    obtain ⟨v, rfl⟩ := runAct_hostStep_next h
    exact ⟨rfl, rfl⟩
  | passAcc newOwner => cases h; exact ⟨rfl, rfl⟩
  | reset => cases h; exact ⟨rfl, rfl⟩

theorem step_next_cfg {s t : State} (h : step s = .next t) : t.cfg = s.cfg := by
  obtain ⟨-, rfl⟩ | ⟨a, rest, -, hact⟩ := step_next h
  · rfl
  · exact (runAct_next_cfg_agenda hact).1

/-- A step takes exactly the act at the head of the agenda. -/
theorem step_next_agenda {s t : State} {a : Act} {rest : List Act} (hagenda : s.agenda = a :: rest)
    (h : step s = .next t) : t.agenda = rest := by
  rw [step_of_agenda_cons hagenda] at h
  exact (runAct_next_cfg_agenda h).2

/-! ### Decode and encode agree (R39, R40) -/

/-- Settles O14: the selector names the operation, and its operand checks accept every operand value and lose nothing of it. -/
theorem decodeOfEncodeIsTheInstruction : Obligations.DecodeOfEncodeIsTheInstruction := decode_encode

/-! ### The invariant (R16, R40)

An operation reads an admitted configuration only, and the lengths it checks are those of R40's result ranges. -/

theorem projectFields_inRange {c : Config} {p : Bytes} {oT oR : Word32} {t : TelemetryFields}
    (hlen : p.length ≤ maxPayloadLen c) (h : projectFields p oT oR = .ok t) : t.inRange c := by
  obtain ⟨hangles, rawT, rawR, -, -, rfl⟩ := projectFields_eq_ok.1 h
  obtain ⟨hlowT, hhighT⟩ := rotation_bounds rawT oT
  obtain ⟨hlowR, hhighR⟩ := rotation_bounds rawR oR
  exact ⟨hangles, hlen, hlowT, hhighT, hlowR, hhighR⟩

/-- A payload that the checks accept is as short as a frame within MAX_FRAME_LEN leaves it. -/
theorem unframeChecks_ok_length_le {c : Config} {raw p : Bytes} {minlen : Nat} (hmin : 4 ≤ minlen)
    (hlen : raw.length ≤ c.maxFrameLen) (h : unframeChecks raw minlen = .ok (.ok p)) : p.length ≤ maxPayloadLen c := by
  have hp : p.length + 4 = raw.length := (unframeChecks_ok_length hmin h).2
  exact Nat.le_sub_of_add_le (hp.trans_le hlen)

theorem frameOf_length_le {c : Config} (hc : admittedConfig c = true) {p : Bytes} (hlen : p.length ≤ maxPayloadLen c) :
    (frameOf p).length ≤ c.maxFrameLen := by
  have hfits : 14 ≤ maxPayloadLen c := fourteen_le_maxPayloadLen hc
  unfold maxPayloadLen OVERHEAD at hlen hfits
  rw [frameOf_length]
  omega

theorem exec_next_result_inRange {i : Instr} {s t : State} (h : exec i s = .next t) : t.result.inRange s.cfg := by
  cases i with
  | crc16 data =>
    obtain ⟨-, -, rfl⟩ := execCrc16_next h
    trivial
  | crcInit =>
    obtain ⟨-, -, rfl⟩ := execCrcInit_next h
    trivial
  | crcUpdate b =>
    obtain ⟨-, -, rfl⟩ := execCrcUpdate_next h
    trivial
  | crcRead =>
    obtain ⟨-, -, rfl⟩ := execCrcRead_next h
    trivial
  | encodeFrame p =>
    obtain ⟨hc, hlen, rfl⟩ := execEncode_next h
    exact ⟨(frameOf_length p).symm ▸ Nat.le_add_left 4 p.length, frameOf_length_le hc hlen⟩
  | unframe raw =>
    obtain ⟨hc, hlen, r, hr, rfl⟩ := execUnframe_next h
    cases r with
    | ok p => exact unframeChecks_ok_length_le (four_le_frameMinLen hc) hlen hr
    | err e => trivial
  | project p oT oR =>
    obtain ⟨-, hlen, f, hf, rfl⟩ := execProject_next h
    exact projectFields_inRange hlen hf
  | decodeFrame raw oT oR =>
    obtain ⟨hc, hlen, r, hr, rfl⟩ := execDecode_next h
    obtain ⟨e, -, rfl⟩ | ⟨p, f, hp, hf, rfl⟩ := decodeTelemetry_eq_ok.1 hr
    · trivial
    · exact projectFields_inRange (unframeChecks_ok_length_le (four_le_tlmMinLen hc) hlen hp) hf

theorem runAct_keeps_inv {a : Act} {s t : State} (hs : Inv s) (h : runAct a s = .next t) : Inv t := by
  obtain ⟨hc, hresult, hvars⟩ := hs
  cases a with
  | issue host sel es b =>
    obtain ⟨vs, i, u, -, -, hexec, rfl⟩ := runAct_issue_next h
    have hrange : u.result.inRange s.cfg := exec_next_result_inRange (s := { s with issuer := host }) hexec
    rw [exec_next_frame hexec]
    exact ⟨hc, hrange, bindResult_nodup host b u.result hvars⟩
  | hostStep host x e =>
    obtain ⟨v, rfl⟩ := runAct_hostStep_next h
    exact ⟨hc, hresult, bindVar_nodup (host, x) v hvars⟩
  | passAcc newOwner => cases h; exact ⟨hc, hresult, hvars⟩
  | reset => cases h; exact ⟨hc, hresult, hvars⟩

/-- Settles O55: an idle step changes nothing, and the agenda is no part of the invariant that an act keeps. -/
theorem everyStepKeepsTheInvariant : Obligations.EveryStepKeepsTheInvariant := by
  intro s t hs h
  obtain ⟨-, rfl⟩ | ⟨a, rest, -, hact⟩ := step_next h
  · exact hs
  · have hrest : Inv { s with agenda := rest } := hs
    exact runAct_keeps_inv hrest hact

/-- Settles O56: right after reset there is no result and no variable. -/
theorem resetMeetsTheInvariant : Obligations.ResetMeetsTheInvariant := by
  have hreset : ∀ c : Config, admittedConfig c = true → Inv (State.resetWith c) :=
    fun c hc => ⟨hc, trivial, List.nodup_nil⟩
  exact ⟨hreset, hreset Config.shown (by decide)⟩

end Sys2Proof.Machine

namespace Sys2Proof.Machine

/-! ### One request for each instruction (R40, R41) -/

/-- An operand form that is accepted is the one the encoder writes. -/
theorem opName_operandValues_of_decodeOperands {op : OpName} {vs : List Value} {i : Instr}
    (h : decodeOperands op vs = .ok i) : i.opName = op ∧ i.operandValues = vs := by
  have bytes {l : List Int} {bs : Bytes} (hbs : asBytes l = .ok bs) : bytesValue bs = .bytes l :=
    congrArg Value.bytes (asBytes_eq_ok hbs)
  have origin {n : Int} {o : Word32} (ho : asOrigin n = .ok o) : originValue o = .int n :=
    congrArg Value.int (asOrigin_eq_ok ho)
  unfold decodeOperands at h
  split at h
  case h_1 | h_5 | h_6 =>
    obtain ⟨bs, hbs, h⟩ := decode_bind_eq_ok.1 h
    cases h
    exact ⟨rfl, by rw [Instr.operandValues, bytes hbs]⟩
  case h_2 | h_4 =>
    cases h
    exact ⟨rfl, rfl⟩
  case h_3 =>
    obtain ⟨b, hb, h⟩ := decode_bind_eq_ok.1 h
    cases h
    exact ⟨rfl, by rw [Instr.operandValues, byteValue, asByte_eq_ok hb]⟩
  case h_7 | h_8 =>
    obtain ⟨bs, hbs, h⟩ := decode_bind_eq_ok.1 h
    obtain ⟨oT, hT, h⟩ := decode_bind_eq_ok.1 h
    obtain ⟨oR, hR, h⟩ := decode_bind_eq_ok.1 h
    cases h
    exact ⟨rfl, by rw [Instr.operandValues, bytes hbs, origin hT, origin hR]⟩
  case h_9 => cases h

/-- Settles O15: the selector is that of the operation, and the operand values are those of the accepted form. -/
theorem eachInstructionHasOneRequest : Obligations.EachInstructionHasOneRequest := by
  rintro ⟨sel, vs⟩ i h
  cases hop : decodeSelector sel with
  | none => rw [decode, hop] at h; cases h
  | some op =>
    rw [decode, hop] at h
    obtain ⟨hname, hvalues⟩ := opName_operandValues_of_decodeOperands h
    have hsel : op.selector = sel := decodeSelector_eq_some.1 hop
    rw [encode, hname, hvalues, hsel]

/-! ### Operands out of range (R75) -/

theorem asBytes_bind_of_mem_out_of_range {α : Type} {l : List Int} (f : Bytes → Except DecodeError α)
    (h : ∃ n ∈ l, n < 0 ∨ 255 < n) : (asBytes l >>= f) = .error .byteOutOfRange := by
  rw [asBytes_of_mem_out_of_range h]
  rfl

theorem decode_decodeFrame_of_origin_out_of_range (raw : Bytes) {nT nR : Int}
    (h : (nT < 0 ∨ 4294967295 < nT) ∨ (nR < 0 ∨ 4294967295 < nR)) :
    decode ⟨0x13, [bytesValue raw, .int nT, .int nR]⟩ = .error .originOutOfRange := by
  have hdecode : decode ⟨0x13, [bytesValue raw, .int nT, .int nR]⟩ =
      (do let raw ← asBytes (raw.map fun b => (b.toNat : Int))
          let oT ← asOrigin nT
          let oR ← asOrigin nR
          pure (.decodeFrame raw oT oR)) := rfl
  rw [hdecode, asBytes_map_toNat]
  exact asOrigin_bind_of_out_of_range _ h

/-- Settles O16: each operation reads its byte list before anything else, and its origins after a list that is in range. -/
theorem operandsOutsideTheirRangesAreRefused : Obligations.OperandsOutsideTheirRangesAreRefused :=
  ⟨fun _ h => ⟨asBytes_bind_of_mem_out_of_range _ h, asBytes_bind_of_mem_out_of_range _ h,
      asBytes_bind_of_mem_out_of_range _ h,
      fun _ _ => ⟨asBytes_bind_of_mem_out_of_range _ h, asBytes_bind_of_mem_out_of_range _ h⟩⟩,
    fun _ => decode_crcUpdate_of_out_of_range,
    fun bs _ _ h => ⟨decode_project_of_origin_out_of_range bs h, decode_decodeFrame_of_origin_out_of_range bs h⟩⟩

/-! ### Reserved selectors (R41) -/

/-- The selectors of R41 are those the table leaves over. -/
theorem decodeSelector_eq_none_iff {sel : BitVec 8} : decodeSelector sel = none ↔
    (sel.toNat = 0 ∨ (5 ≤ sel.toNat ∧ sel.toNat ≤ 0x0F) ∨ 0x14 ≤ sel.toNat) := by
  revert sel
  decide

theorem decode_of_reserved {sel : BitVec 8} (h : decodeSelector sel = none) (vs : List Value) :
    decode ⟨sel, vs⟩ = .error .reservedSelector := by
  rw [decode, h]

/-- Every operation of the table has an instruction, so its selector has a request that is accepted. -/
theorem exists_decode_of_selector {sel : BitVec 8} {op : OpName} (h : decodeSelector sel = some op) :
    ∃ vs i, decode ⟨sel, vs⟩ = .ok i := by
  obtain rfl : op.selector = sel := decodeSelector_eq_some.1 h
  cases op with
  | crc16 => exact ⟨_, _, decode_encode (.crc16 [])⟩
  | crcInit => exact ⟨_, _, decode_encode .crcInit⟩
  | crcUpdate => exact ⟨_, _, decode_encode (.crcUpdate 0)⟩
  | crcRead => exact ⟨_, _, decode_encode .crcRead⟩
  | encodeFrame => exact ⟨_, _, decode_encode (.encodeFrame [])⟩
  | unframe => exact ⟨_, _, decode_encode (.unframe [])⟩
  | project => exact ⟨_, _, decode_encode (.project [] 0 0)⟩
  | decodeFrame => exact ⟨_, _, decode_encode (.decodeFrame [] 0 0)⟩

/-- Settles O13: a selector outside the table is refused before its operands are looked at, and one inside it has a request that
is accepted. -/
theorem reservedSelectorsAreRefused : Obligations.ReservedSelectorsAreRefused := by
  refine ⟨fun sel => ?exactly, fun s h sel es b rest vs hagenda hvs hsel => ?reserved,
    fun s h sel es b rest hagenda hvs _ => ?undefined⟩
  case exactly =>
    rw [← decodeSelector_eq_none_iff]
    refine ⟨decode_of_reserved, fun hall => ?_⟩
    cases hop : decodeSelector sel with
    | none => rfl
    | some op =>
      obtain ⟨vs, i, hi⟩ := exists_decode_of_selector hop
      rw [hall vs] at hi
      cases hi
  case reserved =>
    have hdecode := decode_of_reserved (decodeSelector_eq_none_iff.2 hsel) vs
    rw [step_issue_of_operands hagenda hvs, runRequest, hdecode]
    rfl
  case undefined => exact step_issue_of_no_operands hagenda hvs

/-! ### The laws of the CRC functions (R53 to R55) -/

theorem toNat_ushiftRight_one_le (c : Word16) : (c >>> 1).toNat ≤ 0x7FFF := by
  have := c.isLt
  rw [BitVec.toNat_ushiftRight, Nat.shiftRight_eq_div_pow]
  omega

theorem getLsbD_POLY_of_lt {k : Nat} (hk : k < 15) : POLY.getLsbD k = decide (k = 13 ∨ k = 0) := by
  revert k
  decide

/-- Settles O4: the shift halves, and the bits that the XOR toggles are those of POLY. -/
theorem crcBitstepSixteenBitLaws : Obligations.CrcBitstepSixteenBitLaws := by
  refine fun c => ⟨toNat_ushiftRight_one_le c, crcBitstep_bit15 c, fun h k hk => ?toggled⟩
  case toggled => rw [crcBitstep_of_bit0_set h, BitVec.getLsbD_xor, getLsbD_POLY_of_lt hk]

theorem crc16_append (a b : Bytes) : crc16 (a ++ b) = crc16From (crc16 a) b := by
  rw [crc16_eq_crc16From, crc16_eq_crc16From, crc16From_append]

/-- Settles O5: a fold over two lists one after the other goes on from where the first ended. -/
theorem crc16SplitsAtAnyByteBoundary : Obligations.Crc16SplitsAtAnyByteBoundary := crc16_append

/-- The fold is linear in start value and bytes together, since each of its steps is. -/
theorem crc16From_xor {a e : Bytes} (h : a.length = e.length) (c d : Word16) :
    crc16From (c ^^^ d) (List.zipWith (fun x y => x ^^^ y) a e) = crc16From c a ^^^ crc16From d e := by
  induction a generalizing e c d with
  | nil =>
    obtain rfl : e = [] := List.length_eq_zero_iff.1 h.symm
    rfl
  | cons x a ih =>
    obtain ⟨y, e, rfl⟩ := List.exists_cons_of_length_eq_add_one h.symm
    rw [List.zipWith_cons_cons, crc16From_cons, crcByte_xor, ih (Nat.succ.inj h)]
    rfl

theorem crc16_xor {a e : Bytes} (h : a.length = e.length) :
    crc16 (List.zipWith (fun x y => x ^^^ y) a e) = crc16 a ^^^ crc16From 0 e := by
  have hstart : INIT ^^^ 0#16 = INIT := BitVec.xor_zero
  have hxor := crc16From_xor h INIT 0#16
  rwa [hstart, ← crc16_eq_crc16From, ← crc16_eq_crc16From] at hxor

/-- Settles O6: the start value 0 goes with the change, so the data's checksum is left as it is exactly by the change's 0. -/
theorem crc16IsAffineOverXor : Obligations.Crc16IsAffineOverXor := by
  refine fun a e h => ⟨crc16_xor h, not_congr ?detected⟩
  case detected => rw [crc16_xor h, xor_left_eq_self_iff]

/-- Eight bit steps lose nothing of the register with its byte merged in. -/
theorem xor_setWidth_eq_of_crcByte_eq {c d : Word16} {b e : Byte} (h : crcByte c b = crcByte d e) :
    c ^^^ b.setWidth 16 = d ^^^ e.setWidth 16 := by
  refine BitVec.xor_eq_zero_iff.1 (crcBitsteps_eq_zero (n := 8) ?_)
  rw [crcBitsteps_xor]
  exact BitVec.xor_eq_zero_iff.2 h

/-- The register loses nothing: from two values, the same bytes lead to two values. -/
theorem crc16From_injective {c d : Word16} {l : Bytes} (h : crc16From c l = crc16From d l) : c = d := by
  induction l generalizing c d with
  | nil => exact h
  | cons b l ih => exact (BitVec.xor_left_inj _).1 (xor_setWidth_eq_of_crcByte_eq (ih h))

/-- Two lists that differ in exactly one byte have two checksums, from any start value. -/
theorem crc16From_ne_of_one_byte {x y : Byte} (hne : x ≠ y) (c : Word16) (pre post : Bytes) :
    crc16From c (pre ++ x :: post) ≠ crc16From c (pre ++ y :: post) := by
  intro h
  rw [crc16From_append, crc16From_append, crc16From_cons, crc16From_cons] at h
  have hwide : x.setWidth 16 = y.setWidth 16 := (BitVec.xor_right_inj _).1 (xor_setWidth_eq_of_crcByte_eq (crc16From_injective h))
  exact hne (by simpa using congrArg (BitVec.setWidth 8) hwide)

theorem crc16From_zero_replicate_zero (n : Nat) : crc16From 0 (List.replicate n 0) = 0 := by
  have hzero : crcByte 0 0 = 0 := by decide
  induction n with
  | zero => rfl
  | succ n ih => rw [List.replicate_succ, crc16From_cons, hzero, ih]

/-- Settles O7: with 0 in the place of the byte, the list is all zeros, and its fold from 0 is 0. -/
theorem singleByteChangeAlwaysChangesCrc : Obligations.SingleByteChangeAlwaysChangesCrc := by
  intro m n b hb
  have hzeros : crc16From 0 (List.replicate m 0 ++ 0 :: List.replicate n 0) = 0 := by
    rw [← List.replicate_succ, ← List.replicate_add, crc16From_zero_replicate_zero]
  exact ne_of_ne_of_eq (crc16From_ne_of_one_byte hb 0 _ _) hzeros

end Sys2Proof.Machine

namespace Sys2Proof.Machine

/-! ### DECODE as the checks and the projection (R37, R64) -/

/-- At a minimum of 18 bytes an accepted payload has 14, so once the checks have answered, so does the projection. -/
theorem decodeTelemetry_answers {minlen : Nat} (hmin : 18 ≤ minlen) (raw : Bytes) (oT oR : Word32) :
    ∃ r, decodeTelemetry raw minlen oT oR = .ok r := by
  have hmin4 : 4 ≤ minlen := by omega
  obtain ⟨r, hr⟩ := unframeChecks_answers raw minlen hmin4
  cases r with
  | err e => exact ⟨_, decodeTelemetry_eq_err_iff.2 hr⟩
  | ok p =>
    obtain ⟨hlen, hp⟩ := unframeChecks_ok_length hmin4 hr
    obtain ⟨f, hf⟩ := projectFields_ok p oT oR (by omega)
    exact ⟨_, decodeTelemetry_eq_ok.2 (.inr ⟨p, f, hr, hf, rfl⟩)⟩

/-- Settles O31: DECODE's function answers at TLM_MIN_LEN, with the checks' error or with the projection of their payload. -/
theorem decodeIsUnframeThenProject : Obligations.DecodeIsUnframeThenProject := by
  refine ⟨fun s raw oT oR hc hlen => ?answers, fun _ _ _ _ hc => finish_checks_of_lt_length hc _,
    fun raw oT oR => decode_encode (.decodeFrame raw oT oR), fun raw _ _ => decode_decodeFrame_of_origin_out_of_range raw⟩
  case answers =>
    obtain ⟨r, hr⟩ := decodeTelemetry_answers (eighteen_le_tlmMinLen hc) raw oT oR
    have hexec := (exec_decodeFrame_eq_next_iff hc hlen).2 hr
    obtain ⟨e, he, rfl⟩ | ⟨p, f, hp, hf, rfl⟩ := decodeTelemetry_eq_ok.1 hr
    · exact .inl ⟨e, he, hexec⟩
    · obtain ⟨hangles, rawT, rawR, hT, hR, rfl⟩ := projectFields_eq_ok.1 hf
      exact .inr ⟨p, rawT, rawR, hp, hangles, hT, hR, hexec⟩

/-- A 32-bit read looks at the four bytes from its offset on. -/
theorem readU32LE_eq_take (l : Bytes) (off : Nat) : readU32LE l off = readU32LE ((l.drop off).take 4) 0 := by
  unfold readU32LE
  rw [List.drop_zero]
  rcases l.drop off with _ | ⟨b0, _ | ⟨b1, _ | ⟨b2, _ | ⟨b3, rest⟩⟩⟩⟩ <;> rfl

theorem readU32LE_congr {l m : Bytes} {off off' : Nat} (h : (l.drop off).take 4 = (m.drop off').take 4) :
    readU32LE l off = readU32LE m off' := by
  rw [readU32LE_eq_take, h, ← readU32LE_eq_take]

/-- Lists that agree in bytes 6 to 13 agree in either field of four bytes there. -/
theorem readU32LE_congr_of_angle_bytes {p q : Bytes} (h : (p.drop 6).take 8 = (q.drop 6).take 8) {k : Nat} (hk : k ≤ 4) :
    readU32LE p (6 + k) = readU32LE q (6 + k) := by
  have hfield (l : Bytes) : (l.drop (6 + k)).take 4 = (((l.drop 6).take 8).drop k).take 4 := by
    rw [List.drop_take, List.take_take, List.drop_drop, min_eq_left (by omega)]
  exact readU32LE_congr (by rw [hfield, hfield, h])

/-- A field of the payload region stands one byte further on in the frame. -/
theorem readU32LE_payload_region {raw : Bytes} {off : Nat} (h : off + 8 ≤ raw.length) :
    readU32LE ((raw.drop 1).take (raw.length - 4)) off = readU32LE raw (1 + off) := by
  refine readU32LE_congr ?_
  rw [List.drop_take, List.take_take, List.drop_drop, min_eq_left (by omega)]

/-- Settles O33: an angle is read from four bytes, and those of both angles lie in bytes 6 to 13 of the payload. -/
theorem onlyTheAngleBytesDecideTheAngles : Obligations.OnlyTheAngleBytesDecideTheAngles := by
  refine ⟨fun p q oT oR f g hbytes hf hg => ?payloads, fun raw p minlen hmin hok => ?frame⟩
  case payloads =>
    obtain ⟨-, rawT, rawR, hT, hR, rfl⟩ := projectFields_eq_ok.1 hf
    obtain ⟨-, rawT', rawR', hT', hR', rfl⟩ := projectFields_eq_ok.1 hg
    have hsameT : readU32LE p 6 = readU32LE q 6 := readU32LE_congr_of_angle_bytes hbytes (k := 0) (by decide)
    have hsameR : readU32LE p 10 = readU32LE q 10 := readU32LE_congr_of_angle_bytes hbytes (k := 4) (by decide)
    obtain rfl : rawT = rawT' := Except.ok.inj (hT.symm.trans (hsameT.trans hT'))
    obtain rfl : rawR = rawR' := Except.ok.inj (hR.symm.trans (hsameR.trans hR'))
    exact ⟨rfl, rfl, rfl, rfl, rfl, rfl⟩
  case frame =>
    have hmin4 : 4 ≤ minlen := by omega
    have hlen := (unframeChecks_ok_length hmin4 hok).1
    obtain rfl := unframeChecks_ok_payload hmin4 hok
    exact ⟨readU32LE_payload_region (by omega), readU32LE_payload_region (by omega)⟩

/-! ### Frames and their corruptions (R67 to R69)

A buffer that begins with the marker is a payload region and three more bytes: the received CRC, low byte first, and the end
byte. `unframeChecks_of_parts` says what the checks answer on it; ENCODE's frame and each corruption of it have this shape. -/

theorem unframeChecks_of_parts {q : Bytes} {minlen : Nat} (hmin : 4 ≤ minlen) (hlen : minlen ≤ q.length + 4)
    (lo hi last : Byte) : unframeChecks (START :: (q ++ [lo, hi, last])) minlen =
      .ok (if crc16 q = hi ++ lo then .ok q else .err .checksumMismatch) := by
  have hlength : (START :: (q ++ [lo, hi, last])).length = q.length + 4 := by simp
  have hregion : ((START :: (q ++ [lo, hi, last])).drop 1).take ((START :: (q ++ [lo, hi, last])).length - 4) = q := by
    rw [hlength]
    exact List.take_left
  have hfield : rdU16LE (START :: (q ++ [lo, hi, last])) ((START :: (q ++ [lo, hi, last])).length - 3) = .ok (hi ++ lo) := by
    rw [hlength]
    exact rdU16LE_eq_ok.2 ⟨lo, hi, [last], List.drop_left, (low_or_high_eq_append lo hi).symm⟩
  rw [unframeChecks_of_crc_field hmin (hlength.symm ▸ hlen) rfl hfield, hregion]

theorem crc16_set_ne {p : Bytes} {k : Nat} {b : Byte} (hk : k < p.length) (hb : p[k] ≠ b) : crc16 (p.set k b) ≠ crc16 p := by
  have hset (x : Byte) : p.set k x = p.take k ++ x :: p.drop (k + 1) := by
    rw [List.set_eq_take_append_cons_drop, if_pos hk]
  have hself : p = p.take k ++ p[k] :: p.drop (k + 1) := (List.set_getElem_self hk).symm.trans (hset p[k])
  have hone := crc16From_ne_of_one_byte hb.symm INIT (p.take k) (p.drop (k + 1))
  rwa [← hset, ← hself, ← crc16_eq_crc16From, ← crc16_eq_crc16From] at hone

/-- The parts of a frame. -/
theorem frameOf_eq_cons (p : Bytes) :
    frameOf p = START :: (p ++ [(crc16 p).extractLsb' 0 8, (crc16 p).extractLsb' 8 8, END_MARK]) := by
  simp [frameOf, u16le]

theorem frameOf_set_payload {p : Bytes} {k : Nat} (hk : k < p.length) (b : Byte) : (frameOf p).set (1 + k) b =
    START :: (p.set k b ++ [(crc16 p).extractLsb' 0 8, (crc16 p).extractLsb' 8 8, END_MARK]) := by
  rw [frameOf_eq_cons, Nat.add_comm, List.set_cons_succ, List.set_append_left _ _ hk]

theorem frameOf_set_after_payload (p : Bytes) (k : Nat) (b : Byte) : (frameOf p).set (p.length + 1 + k) b =
    START :: (p ++ [(crc16 p).extractLsb' 0 8, (crc16 p).extractLsb' 8 8, END_MARK].set k b) := by
  rw [frameOf_eq_cons, Nat.add_right_comm, List.set_cons_succ, List.set_append_right _ _ (Nat.le_add_right ..),
    Nat.add_sub_cancel_left]

section
variable {p : Bytes} {minlen : Nat} (hmin : 4 ≤ minlen) (hlen : minlen ≤ p.length + 4)
include hmin hlen

/-- The checks accept a frame, and its payload is the one framed. -/
theorem unframeChecks_frameOf : unframeChecks (frameOf p) minlen = .ok (.ok p) := by
  rw [frameOf_eq_cons, unframeChecks_of_parts hmin hlen, if_pos (append_high_low _).symm]

/-- The change of one payload byte changes the checksum, and the frame still carries the one before it. -/
theorem unframeChecks_frameOf_set_payload {k : Nat} {b : Byte} (hk : k < p.length) (hb : p[k]? ≠ some b) :
    unframeChecks ((frameOf p).set (1 + k) b) minlen = .ok (.err .checksumMismatch) := by
  have hcrc : crc16 (p.set k b) ≠ crc16 p := crc16_set_ne hk fun h => hb (List.getElem?_eq_some_iff.2 ⟨hk, h⟩)
  rw [frameOf_set_payload hk, unframeChecks_of_parts hmin (by rwa [List.length_set]), append_high_low, if_neg hcrc]

theorem unframeChecks_frameOf_set_start {b : Byte} (hb : b ≠ START) :
    unframeChecks ((frameOf p).set 0 b) minlen = .ok (.err .badStartByte) := by
  refine (unframeChecks_eq_badStartByte_iff hmin).2 ⟨?_, ?_⟩
  · rwa [List.length_set, frameOf_length]
  · rw [frameOf_eq_cons, List.set_cons_zero, List.head?_cons]
    exact fun h => hb (Option.some.inj h)

theorem unframeChecks_frameOf_set_crc_low {b : Byte} (hb : (frameOf p)[p.length + 1]? ≠ some b) :
    unframeChecks ((frameOf p).set (p.length + 1) b) minlen = .ok (.err .checksumMismatch) := by
  have hset : (frameOf p).set (p.length + 1) b = START :: (p ++ [b, (crc16 p).extractLsb' 8 8, END_MARK]) :=
    frameOf_set_after_payload p 0 b
  have hcrc : crc16 p ≠ (crc16 p).extractLsb' 8 8 ++ b := fun h =>
    hb ((frameOf_getElem?_after_payload p 0).trans (congrArg some (h ▸ low_of_append _ _)))
  rw [hset, unframeChecks_of_parts hmin hlen, if_neg hcrc]

theorem unframeChecks_frameOf_set_crc_high {b : Byte} (hb : (frameOf p)[p.length + 2]? ≠ some b) :
    unframeChecks ((frameOf p).set (p.length + 2) b) minlen = .ok (.err .checksumMismatch) := by
  have hset : (frameOf p).set (p.length + 2) b = START :: (p ++ [(crc16 p).extractLsb' 0 8, b, END_MARK]) :=
    frameOf_set_after_payload p 1 b
  have hcrc : crc16 p ≠ b ++ (crc16 p).extractLsb' 0 8 := fun h =>
    hb ((frameOf_getElem?_after_payload p 1).trans (congrArg some (h ▸ high_of_append _ _)))
  rw [hset, unframeChecks_of_parts hmin hlen, if_neg hcrc]

theorem unframeChecks_frameOf_set_end (b : Byte) :
    unframeChecks ((frameOf p).set (p.length + 3) b) minlen = .ok (.ok p) := by
  have hset : (frameOf p).set (p.length + 3) b =
      START :: (p ++ [(crc16 p).extractLsb' 0 8, (crc16 p).extractLsb' 8 8, b]) := frameOf_set_after_payload p 2 b
  rw [hset, unframeChecks_of_parts hmin hlen, if_pos (append_high_low _).symm]

end

/-- Without its last byte, a frame is read with the last payload byte and the low CRC byte as its CRC, and the high CRC byte as
its end byte. -/
theorem frameOf_dropLast (q : Bytes) (x : Byte) : (frameOf (q ++ [x])).dropLast =
    START :: (q ++ [x, (crc16 (q ++ [x])).extractLsb' 0 8, (crc16 (q ++ [x])).extractLsb' 8 8]) := by
  rw [frameOf, List.dropLast_concat]
  simp [u16le]

/-- Settles O35: the frame is within MAX_FRAME_LEN because its payload was, and neither operation reads the result it lies in. -/
theorem unframeAndDecodeInvertEncode : Obligations.UnframeAndDecodeInvertEncode := by
  refine ⟨fun s t p f h hf hmin => ?unframe, fun s t p f oT oR h hf hmin => ?decode⟩ <;>
    obtain ⟨hc, hlen, rfl⟩ := execEncode_next h <;>
    obtain rfl : frameOf p = f := Result.frame.inj hf
  case unframe =>
    have hok := unframeChecks_frameOf (four_le_frameMinLen hc) hmin
    exact (exec_with_result _ s _).trans ((exec_unframe_eq_next_iff hc (frameOf_length_le hc hlen)).2 hok)
  case decode =>
    have hok := unframeChecks_frameOf (four_le_tlmMinLen hc) hmin
    have htlm := eighteen_le_tlmMinLen hc
    obtain ⟨d, hd⟩ := projectFields_ok p oT oR (by omega)
    have hdecode := decodeTelemetry_eq_ok.2 (.inr ⟨p, d, hok, hd, rfl⟩)
    refine ⟨d, (exec_with_result _ s _).trans ((exec_decodeFrame_eq_next_iff hc (frameOf_length_le hc hlen)).2 hdecode), ?_⟩
    obtain ⟨-, _, _, -, -, rfl⟩ := projectFields_eq_ok.1 hd
    rfl

/-- Settles O36: both operations report the mismatch that the checks report. -/
theorem oneChangedPayloadByteIsDetected : Obligations.OneChangedPayloadByteIsDetected := by
  intro s p k b oT oR hc hmax hk hb
  have hlen : ((frameOf p).set (1 + k) b).length ≤ s.cfg.maxFrameLen := by rwa [List.length_set, frameOf_length]
  rw [exec_unframe_eq_next_iff hc hlen, exec_decodeFrame_eq_next_iff hc hlen, decodeTelemetry_eq_err_iff]
  exact ⟨fun hmin => unframeChecks_frameOf_set_payload (four_le_frameMinLen hc) hmin hk hb,
    fun hmin => unframeChecks_frameOf_set_payload (four_le_tlmMinLen hc) hmin hk hb⟩

/-- Settles O37: one clause for each byte outside the payload, and the two lengths a frame without its last byte can have. -/
theorem otherSingleByteCorruptions : Obligations.OtherSingleByteCorruptions := by
  refine fun p minlen b hmin hlen => ⟨unframeChecks_frameOf_set_start hmin hlen, unframeChecks_frameOf_set_crc_low hmin hlen,
    unframeChecks_frameOf_set_crc_high hmin hlen, unframeChecks_frameOf_set_end hmin hlen b, fun hshort => ?short,
    fun q x hp hlong => ?long⟩
  case short =>
    refine (unframeChecks_eq_frameTooShort_iff hmin).2 ?_
    rwa [List.length_dropLast, frameOf_length]
  case long =>
    subst hp
    rw [frameOf_dropLast, unframeChecks_of_parts hmin (by simpa using hlong), apply_ite Except.ok]

end Sys2Proof.Machine

namespace Sys2Proof.Machine

/-! ### When an operation completes (R16, R40, R75, R79)

The three parts of `Admitted` are the three things a meaning checks. Each of them that fails is refused under a name of its own;
when none fails, the operation completes. -/

theorem exec_of_not_admittedConfig {i : Instr} {s : State} (hc : admittedConfig s.cfg = false) :
    exec i s = .refused .badConfiguration := by
  rw [exec_eq_refused]
  unfold resultOf
  rw [hc]
  rfl

section
variable {i : Instr} {s : State} (hc : admittedConfig s.cfg = true)
include hc

theorem exec_of_not_owner (hi : i.usesAcc = true) (hother : s.issuer ≠ s.owner) : exec i s = .refused .concurrentAccUse :=
  accBelongsToItsOwner.2 i s hc hi hother

theorem exec_project_of_length_lt {p : Bytes} (oT oR : Word32) (hshort : p.length < 14) :
    exec (.project p oT oR) s = .refused .payloadTooShortForTelemetry := by
  obtain ⟨-, hrefused, -⟩ := projectReadsTheTwoAngles
  exact hrefused s p oT oR hc hshort

theorem exec_of_not_wf (hwf : i.wf s.cfg = false) :
    exec i s = .refused .operandTooLong ∨ exec i s = .refused .payloadTooShortForTelemetry := by
  cases i with
  | crcInit | crcUpdate _ | crcRead => cases hwf
  | crc16 data | encodeFrame data | unframe data | decodeFrame data _ _ =>
    exact .inl (finish_checks_of_lt_length hc _ (Nat.lt_of_not_le (of_decide_eq_false hwf)))
  | project p oT oR =>
    by_cases hshort : p.length < 14
    · exact .inr (exec_project_of_length_lt hc oT oR hshort)
    · rw [Instr.wf, decide_eq_true (Nat.le_of_not_lt hshort), Bool.true_and] at hwf
      exact .inl (finish_checks_of_lt_length hc _ (Nat.lt_of_not_le (of_decide_eq_false hwf)))

theorem exec_of_wf (hwf : i.wf s.cfg = true) (howner : i.usesAcc = true → s.issuer = s.owner) : ∃ t, exec i s = .next t := by
  cases i with
  | crc16 data => exact ⟨_, exec_crc16_of_length_le hc (of_decide_eq_true hwf)⟩
  | crcInit => exact ⟨_, exec_crcInit_of_owner hc (howner rfl)⟩
  | crcUpdate b => exact ⟨_, exec_crcUpdate_of_owner hc (howner rfl) b⟩
  | crcRead => exact ⟨_, exec_crcRead_of_owner hc (howner rfl)⟩
  | encodeFrame p => exact ⟨_, exec_encodeFrame_of_length_le hc (of_decide_eq_true hwf)⟩
  | unframe raw =>
    obtain ⟨r, hr⟩ := unframeChecks_answers raw s.cfg.frameMinLen (four_le_frameMinLen hc)
    exact ⟨_, (exec_unframe_eq_next_iff hc (of_decide_eq_true hwf)).2 hr⟩
  | project p oT oR =>
    obtain ⟨hangles, hlen⟩ := Bool.and_eq_true_iff.1 hwf
    obtain ⟨f, hf⟩ := projectFields_ok p oT oR (of_decide_eq_true hangles)
    exact ⟨_, (exec_project_eq_next_iff hc (of_decide_eq_true hlen)).2 hf⟩
  | decodeFrame raw oT oR =>
    obtain ⟨r, hr⟩ := decodeTelemetry_answers (eighteen_le_tlmMinLen hc) raw oT oR
    exact ⟨_, (exec_decodeFrame_eq_next_iff hc (of_decide_eq_true hwf)).2 hr⟩

end

theorem exec_of_admitted {i : Instr} {s : State} (h : Admitted i s) : ∃ t, exec i s = .next t := by
  obtain ⟨hc, hwf, howner⟩ := h
  exact exec_of_wf hc hwf howner

/-- The part of `Admitted` that fails names the reason, and none of these reasons is a field read past its end. -/
theorem exec_of_not_admitted {i : Instr} {s : State} (h : ¬ Admitted i s) :
    ∃ r, exec i s = .refused r ∧ r ≠ .fieldOutOfBounds := by
  cases hc : admittedConfig s.cfg with
  | false => exact ⟨_, exec_of_not_admittedConfig hc, by decide⟩
  | true =>
    cases hwf : i.wf s.cfg with
    | false =>
      obtain hlong | hshort := exec_of_not_wf hc hwf
      · exact ⟨_, hlong, by decide⟩
      · exact ⟨_, hshort, by decide⟩
    | true =>
      have hnot : ¬(i.usesAcc = true → s.issuer = s.owner) := fun howner => h ⟨hc, hwf, howner⟩
      obtain ⟨hi, hother⟩ := Classical.not_imp.1 hnot
      exact ⟨_, exec_of_not_owner hc hi hother, by decide⟩

/-- Settles O42: nothing but the three parts of `Admitted` is checked. -/
theorem operationsCompleteExactlyWhenAdmitted : Obligations.OperationsCompleteExactlyWhenAdmitted := by
  refine fun i s => ⟨exec_of_admitted, fun h => ?refused⟩
  case refused =>
    obtain ⟨r, hr, -⟩ := exec_of_not_admitted h
    exact ⟨r, hr⟩

/-- Settles O43: an admitted operation is not refused, and any other is refused before a field is read. -/
theorem noOperationReadsAFieldOutOfBounds : Obligations.NoOperationReadsAFieldOutOfBounds := by
  intro i s hbounds
  by_cases h : Admitted i s
  · obtain ⟨t, ht⟩ := exec_of_admitted h
    rw [ht] at hbounds
    cases hbounds
  · obtain ⟨r, hr, hne⟩ := exec_of_not_admitted h
    rw [hr] at hbounds
    cases hbounds
    exact hne rfl

/-- Settles O44: every meaning begins with the check of the configuration, which no act changes. -/
theorem configurationIsCheckedAndFixed : Obligations.ConfigurationIsCheckedAndFixed :=
  ⟨fun _ => admittedConfig_iff, fun _ _ => exec_of_not_admittedConfig, fun _ _ => step_next_cfg⟩

/-- Settles O40: a pure operation changes the result alone, which no operation reads. -/
theorem pureOperationsDoNotAffectLaterOnes : Obligations.PureOperationsDoNotAffectLaterOnes := by
  intro i j s t hi h
  obtain ⟨r, -, rfl⟩ := (exec_eq_next_of_pure hi).1 h
  exact exec_with_result j s r

/-! ### Sequences of operations (R53, R85) -/

/-- Of the operations other than CRC.INIT, a CRC.UPDATE folds its byte into ACC and the others leave ACC as it is. -/
theorem accAfter_eq_crc16From {i : Instr} (hi : i ≠ .crcInit) (acc : Word16) :
    accAfter i acc = crc16From acc i.fedByte.toList := by
  cases i with
  | crcInit => exact absurd rfl hi
  | _ => rfl

/-- A sequence without CRC.INIT folds the bytes it feeds into what ACC held. -/
theorem execAll_next_acc {ops : List Instr} {s t : State} (hops : ∀ i ∈ ops, i ≠ .crcInit) (h : execAll ops s = .next t) :
    t.acc = crc16From s.acc (ops.filterMap Instr.fedByte) := by
  induction ops generalizing s with
  | nil => cases h; rfl
  | cons i ops ih =>
    obtain ⟨hi, hops⟩ := List.forall_mem_cons.1 hops
    obtain ⟨u, hu, h⟩ := execAll_cons_next h
    obtain ⟨r, -, rfl⟩ := exec_eq_next.1 hu
    rw [ih hops h, handResult_acc, writeAcc_acc, accAfter_eq_crc16From hi, ← crc16From_append]
    cases hb : i.fedByte <;> simp [hb]

/-- Settles O46: CRC.INIT leaves INIT in ACC, from where the checksum is the fold. -/
theorem accIsTheChecksumOfTheBytesFed : Obligations.AccIsTheChecksumOfTheBytesFed := by
  refine fun ops s t hops => ⟨fun h => ?fromInit, execAll_next_acc hops⟩
  case fromInit =>
    obtain ⟨u, hu, h⟩ := execAll_cons_next h
    obtain ⟨-, -, rfl⟩ := execCrcInit_next hu
    rw [execAll_next_acc hops h, crc16_eq_crc16From]
    rfl

/-- Settles O47: after CRC.INIT the result is what every CRC.UPDATE leaves, so the updates move ACC alone. -/
theorem byteSerialAgreesWithWholeList : Obligations.ByteSerialAgreesWithWholeList := by
  intro s data hc howner
  have hupdates := execAll_updates_of_owner (s := { s with acc := INIT, result := .nothing }) data [] hc howner rfl
  rw [List.append_nil] at hupdates
  rw [execAll_cons_of_exec (exec_crcInit_of_owner hc howner), hupdates, crc16_eq_crc16From]
  rfl

/-- CRC.UPDATEs issued by ACC's owner complete, each leaving the owner and the configuration as they were for the next. -/
theorem execAll_updates_completes (data : Bytes) {s : State} (hc : admittedConfig s.cfg = true)
    (howner : s.issuer = s.owner) : ∃ t, execAll (data.map Instr.crcUpdate) s = .next t := by
  induction data generalizing s with
  | nil => exact ⟨s, rfl⟩
  | cons b data ih =>
    rw [List.map_cons, execAll_cons_of_exec (exec_crcUpdate_of_owner hc howner b)]
    exact ih hc howner

theorem filterMap_fedByte_updates (data : Bytes) : (data.map Instr.crcUpdate).filterMap Instr.fedByte = data := by
  rw [List.filterMap_map]
  exact List.filterMap_some

/-- Settles O48: the fold goes on from `crc16 previous`, which splits the checksum at the boundary between the two lists. -/
theorem staleAccumulatorContinues : Obligations.StaleAccumulatorContinues := by
  intro s previous data hc howner hacc
  obtain ⟨t, ht⟩ := execAll_updates_completes data hc howner
  have hnoInit : ∀ i ∈ data.map Instr.crcUpdate, i ≠ .crcInit := by simp
  refine ⟨t, ht, ?_⟩
  rw [execAll_next_acc hnoInit ht, filterMap_fedByte_updates, hacc, crc16_append]

/-! ### Runs and single steps (R13, R82, R90) -/

/-- A run of as many steps as there are acts takes them all. -/
theorem runSteps_agenda_length {acts : List Act} {s t : State} (hagenda : s.agenda = acts)
    (h : runSteps acts.length s = .next t) : t.agenda = [] := by
  induction acts generalizing s with
  | nil => cases h; exact hagenda
  | cons a acts ih =>
    obtain ⟨u, hu, h⟩ := runSteps_succ_next h
    exact ih (step_next_agenda hagenda hu) h

theorem runSteps_succ_of_refused {s : State} {r : Refusal} (k : Nat) (h : step s = .refused r) :
    runSteps (k + 1) s = .refused r := by
  rw [runSteps, h]

/-- Settles O54: one act for each step. -/
theorem programsEndAfterTheirLastAct : Obligations.ProgramsEndAfterTheirLastAct :=
  ⟨fun _ _ _ _ => step_next_agenda, fun _ _ => runSteps_agenda_length rfl, fun _ _ => runSteps_succ_of_refused⟩

/-- A line whose request decodes carries out the instruction, and its outcome is that of the line. -/
theorem step_issue_of_decode {s : State} {h : HostId} {sel : BitVec 8} {es : List Expr} {b : Bind} {rest : List Act}
    {vs : List Value} {i : Instr} (hagenda : s.agenda = .issue h sel es b :: rest) (hvs : evalOperands s.vars h es = some vs)
    (hi : decode ⟨sel, vs⟩ = .ok i) : step s = bindOutcome h b (exec i { s with issuer := h, agenda := rest }) := by
  rw [step_issue_of_operands hagenda hvs, runRequest_of_decode hi]

/-- Settles O51: the outcome of the line is that of the operation, with its result bound. -/
theorem stepRunsTheDecodedOperation : Obligations.StepRunsTheDecodedOperation := by
  intro s h sel es b rest vs i hagenda hvs hi
  rw [step_issue_of_decode hagenda hvs hi]
  exact ⟨fun t ht => by rw [ht, bindOutcome], fun r hr => by rw [hr, bindOutcome]⟩

/-- Settles O52: the word is placed with its operands as literals, and its line binds nothing. -/
theorem stepRunsAPlacedTableWord : Obligations.StepRunsAPlacedTableWord := by
  intro s t nbits w i hi ht
  have hdecode : decode (tableRequest nbits w) = .ok i := by
    unfold decodeTableWord at hi
    split at hi
    · cases hi; assumption
    · cases hi
  have hstep : step (s.withFetchWord nbits w) = bindOutcome s.owner .nothing (exec i { s with issuer := s.owner }) :=
    step_issue_of_decode (withFetchWord_agenda s nbits w) (evalOperands_lit _ _ _) hdecode
  rw [hstep, ht]
  rfl

/-- Settles O53: the acts that issue nothing. -/
theorem hostStepsLeaveTheBlockAlone : Obligations.HostStepsLeaveTheBlockAlone := by
  refine ⟨fun s hidle => ?idle, fun s h x e v rest hagenda hv => ?host, fun s h rest hagenda => ?owner⟩
  case idle => rw [step, nextAct, hidle]
  case host =>
    rw [step_of_agenda_cons hagenda]
    exact runAct_hostStep_of_value hv
  case owner => rw [step_of_agenda_cons hagenda, runAct]

/-- Settles O50: in the reset state the issuer is ACC's owner, so an operation with operands in range is admitted there. -/
theorem resetSetsAccAndNothingElse : Obligations.ResetSetsAccAndNothingElse := by
  refine ⟨fun s rest hagenda => ?reset, fun c => ⟨resetWith_acc c, resetWith_cfg c⟩,
    fun c i hc hwf => exec_of_admitted ⟨hc, hwf, fun _ => rfl⟩⟩
  case reset =>
    rw [step_of_agenda_cons hagenda]
    rfl

/-! ### The bindings of a line (R43) -/

/-- After `Ok` the status 0 is bound and then the value, which stays when both are to go to one variable. -/
theorem lookupVar_bindResult_status_ok {r : Result} {v : Value} (hr : r.statusAndValue = some (0x00, some v)) (vars : Vars)
    (h : HostId) (st x : VarName) :
    (st ≠ x → lookupVar (bindResult vars h (.status st x) r) (h, st) = some (.int 0)) ∧
    lookupVar (bindResult vars h (.status st x) r) (h, x) = some v ∧
    ∀ k, k ≠ (h, st) → k ≠ (h, x) → lookupVar (bindResult vars h (.status st x) r) k = lookupVar vars k := by
  rw [bindResult_status hr, bindVar?_some]
  refine ⟨fun hne => ?status, lookupVar_bindVar_self .., fun k hst hx => ?others⟩
  case status =>
    have hkey : (h, st) ≠ (h, x) := fun heq => hne (congrArg Prod.snd heq)
    rw [lookupVar_bindVar_ne _ _ hkey, lookupVar_bindVar_self]
    rfl
  case others => rw [lookupVar_bindVar_ne _ _ hx, lookupVar_bindVar_ne _ _ hst]

/-- After an error only the status is bound. -/
theorem lookupVar_bindResult_status_err {r : Result} {e : CodecError} (hr : r.statusAndValue = some (e.status, none))
    (vars : Vars) (h : HostId) (st x : VarName) :
    lookupVar (bindResult vars h (.status st x) r) (h, st) = some (.int e.status.toNat) ∧
    ∀ k, k ≠ (h, st) → lookupVar (bindResult vars h (.status st x) r) k = lookupVar vars k := by
  rw [bindResult_status hr, bindVar?_none]
  exact ⟨lookupVar_bindVar_self .., fun k hst => lookupVar_bindVar_ne _ _ hst⟩

/-- Settles O18: UNFRAME's and DECODE's results have one status table. -/
theorem statusLinesBindStatusAndOkValue : Obligations.StatusLinesBindStatusAndOkValue := by
  refine fun vars h st x => ⟨fun r v hr => lookupVar_bindResult_status_ok ?ok vars h st x,
    fun r e hr => lookupVar_bindResult_status_err ?err vars h st x⟩
  case ok => obtain ⟨p, rfl, rfl⟩ | ⟨t, rfl, rfl⟩ := hr <;> rfl
  case err => obtain rfl | rfl := hr <;> rfl

/-- A value line on an operation that returns something binds it and nothing else. -/
theorem lookupVar_bindResult_value {r : Result} {v : Value} (hr : r.boundValue = some v) (vars : Vars) (h : HostId)
    (x : VarName) : lookupVar (bindResult vars h (.value x) r) (h, x) = some v ∧
      ∀ k, k ≠ (h, x) → lookupVar (bindResult vars h (.value x) r) k = lookupVar vars k := by
  rw [bindResult_value hr]
  exact ⟨lookupVar_bindVar_self .., fun k hx => lookupVar_bindVar_ne _ _ hx⟩

/-- Settles O57: each form of a result has the value it is bound as, or none. -/
theorem valueLinesBindTheResult : Obligations.ValueLinesBindTheResult := by
  refine fun vars h x => ⟨fun r v hr => lookupVar_bindResult_value ?value vars h x, bindResult_value_none rfl,
    fun st r hr => bindResult_status_none ?noStatus, bindResult_nothing vars h⟩
  case value =>
    obtain ⟨c, rfl, rfl⟩ | ⟨f, rfl, rfl⟩ | ⟨u, rfl, rfl⟩ | ⟨t, rfl, rfl⟩ | ⟨d, rfl, rfl⟩ := hr <;> rfl
  case noStatus => obtain rfl | ⟨c, rfl⟩ | ⟨f, rfl⟩ | ⟨t, rfl⟩ := hr <;> rfl

end Sys2Proof.Machine
